-- ==== Sys2Proof/Word.lean ====
section
/-! DEFINITION. The value types of CORE, with the widths of 00_scope.md R6 (all fixed there: a model takes none as an argument). -/

namespace Sys2Proof

/-- An unsigned byte: a general register (`XLEN` = 8) or one location of memory (R10, R14). -/
abbrev Byte := BitVec 8

/-- 16 bits: an instruction word, `pc` (`PC_W`) or a call-stack entry (`STACK_W`) (R12, R15, R39). -/
abbrev Word := BitVec 16

/-- A 4-bit field of an instruction word (R7, R40). -/
abbrev Nibble := BitVec 4

/-- A 12-bit address, 0x000 to 0xFFF (R25, R42). -/
abbrev Addr := BitVec 12

/-- The index of a general register: each of the `NREG` = 16 values selects a register (R10). -/
abbrev RegIndex := Fin 16

/-- The call-stack cursor: the 17 values 0 to `SP_MAX` = 16 (R16, D13). -/
abbrev StackCursor := Fin 17

end Sys2Proof
end

