-- ==== Sys2Proof/Syntax.lean ====
section
/-! DEFINITION. The instructions of CORE, one constructor per row of opcode_table.json (30_encoding.md R43). The operand types carry the bounds of R42 (log entry 3). -/

namespace Sys2Proof

/-- The complete instruction set (R43). -/
inductive Instr where
  /-- HALT, format Z (R56). -/
  | halt
  /-- RETURN, format Z (R59). -/
  | ret
  /-- CALL addr, format A: `addr` is an absolute byte address (R58). -/
  | call (addr : Addr)
  /-- ADD Vx, Vy, format R: `x` is destination and first source (R62). -/
  | add (x y : RegIndex)
deriving DecidableEq, Repr

end Sys2Proof
end

