-- ==== Sys2Proof/WellFormed.lean ====
section
/-! DEFINITION. What is checked of an instruction before it is one: the operand numbers of 30_encoding.md R47, and the field tuple of R40, whose address operand is derived from its nibbles. -/

namespace Sys2Proof

/-- R47: the number `a` of `CALL a` is 0x000 to 0xFFF. -/
def callOperandOk (a : Nat) : Bool := decide (a ≤ 0xFFF)

/-- R47: the `x` and `y` of `ADD Vx, Vy` are hexadecimal digits, 0 to F. -/
def addOperandsOk (x y : Nat) : Bool := decide (x ≤ 0xF) && decide (y ≤ 0xF)

/-- The operands of an instruction pass the checks of R47. The types of `Instr` already bound them, so this holds of
every instruction (`Laws.wellFormed_every`, log entry 3); what it can refuse is refused by `asmCall` and `asmAdd`. -/
def Instr.wellFormed : Instr → Bool
  | .halt => true
  | .ret => true
  | .call addr => callOperandOk addr.toNat
  | .add x y => addOperandsOk x.val y.val

/-- `CALL a` of R47's table from the number `a`, where `a` passes the check. -/
def asmCall (a : Nat) : Option Instr :=
  if callOperandOk a then some (.call (BitVec.ofNat 12 a)) else none

/-- `ADD Vx, Vy` of R47's table from the numbers `x` and `y`, where both pass the check. -/
def asmAdd (x y : Nat) : Option Instr :=
  if h : x < 16 ∧ y < 16 then some (.add ⟨x, h.1⟩ ⟨y, h.2⟩) else none

/-- The decoded tuple `(class, x, y, d, addr)` (R40). -/
structure Fields where
  /-- bits 15:12, the operation class -/
  cls : Nibble
  /-- bits 11:8, register index X -/
  x : Nibble
  /-- bits 7:4, register index Y -/
  y : Nibble
  /-- bits 3:0, the operation sub-selector -/
  d : Nibble
  /-- bits 11:0, the address operand -/
  addr : Addr
deriving DecidableEq, Repr

/-- R40: `addr = x ++ y ++ d`; it is "a derived field, not a fifth independent read". -/
def Fields.wellFormed (f : Fields) : Bool := decide (f.addr = f.x ++ f.y ++ f.d)

end Sys2Proof
end

