-- ==== Sys2Proof/Decode.lean ====
section
/-! DEFINITION. The decoder, total on every word and on every list of bytes, and the encoder (30_encoding.md R39 to R47, 40_step_fetch_decode_dispatch.md R50, R51). -/

namespace Sys2Proof

/-- Why bytes are not an instruction. -/
inductive DecodeReject where
  /-- The word matches no row of the instruction table: UnimplementedOpcode(w) (R45, R51). -/
  | unimplemented (w : Word)
  /-- Fewer than two bytes: an instruction is always two (R39). The machine's fetch never gives this. -/
  | tooShort
deriving DecidableEq, Repr

/-- Big-endian: the byte at the lower address is the more significant (R28, R39). -/
def wordOfBytes (hi lo : Byte) : Word := hi ++ lo

/-- The byte of a word that stands at the lower address (R39). -/
def highByte (w : Word) : Byte := w.extractLsb' 8 8

/-- The byte of a word that stands at the higher address (R39). -/
def lowByte (w : Word) : Byte := w.extractLsb' 0 8

/-- The register a 4-bit field selects: the field as it stands (R42). -/
def regOfNibble (n : Nibble) : RegIndex := n.toFin

/-- The 4-bit field that selects a register (R42). -/
def nibbleOfReg (i : RegIndex) : Nibble := BitVec.ofFin i

/-- R50: the five fields, produced for every word. -/
def splitFields (w : Word) : Fields where
  cls := w.extractLsb' 12 4
  x := w.extractLsb' 8 4
  y := w.extractLsb' 4 4
  d := w.extractLsb' 0 4
  addr := w.extractLsb' 0 12

/-- The word whose four nibbles are the tuple's (R40, R41). -/
def joinFields (f : Fields) : Word := f.cls ++ f.x ++ f.y ++ f.d

/-- R51's chain over the field tuple, in the listed priority order; `none` is its last arm. -/
def classify (f : Fields) : Option Instr :=
  if f.cls = 0x0#4 ∧ f.x = 0x0#4 ∧ f.y = 0x0#4 ∧ f.d = 0x0#4 then some .halt
  else if f.cls = 0x0#4 ∧ f.x = 0x0#4 ∧ f.y = 0xE#4 ∧ f.d = 0xE#4 then some .ret
  else if f.cls = 0x2#4 then some (.call f.addr)
  else if f.cls = 0x8#4 ∧ f.d = 0x4#4 then some (.add (regOfNibble f.x) (regOfNibble f.y))
  else none

/-- The decoder: a total function from the 65536 words onto R45's five outcomes. -/
def decode (w : Word) : Except DecodeReject Instr :=
  match classify (splitFields w) with
  | some i => .ok i
  | none => .error (.unimplemented w)

/-- The instruction at the head of a list of bytes, with the bytes after it (R39). -/
def decodeBytes : List Byte → Except DecodeReject (Instr × List Byte)
  | hi :: lo :: rest =>
    match decode (wordOfBytes hi lo) with
    | .ok i => .ok (i, rest)
    | .error e => .error e
  | _ => .error .tooShort

/-- The word of an instruction, from the encoding strings of R43: formats Z, A and R (R41). -/
def encode : Instr → Word
  | .halt => 0x0000#16
  | .ret => 0x00EE#16
  | .call addr => 0x2#4 ++ addr
  | .add x y => 0x8#4 ++ nibbleOfReg x ++ nibbleOfReg y ++ 0x4#4

/-- The two bytes of an instruction as memory holds them, high byte first (R39, R47). -/
def encodeBytes (i : Instr) : List Byte := [highByte (encode i), lowByte (encode i)]

/-- One row of the instruction table: a word `w` selects it when `w & mask = pattern` (R43). -/
structure TableRow where
  mnemonic : String
  mask : Word
  pattern : Word
deriving DecidableEq, Repr

/-- "A word `w` selects row `r` when `w & mask_r = match_r`" (R43). -/
def TableRow.selects (r : TableRow) (w : Word) : Bool := decide (w &&& r.mask = r.pattern)

/-- The row of opcode_table.json an instruction belongs to (R43). -/
def rowOf : Instr → TableRow
  | .halt => ⟨"HALT", 0xFFFF#16, 0x0000#16⟩
  | .ret => ⟨"RETURN", 0xFFFF#16, 0x00EE#16⟩
  | .call _ => ⟨"CALL", 0xF000#16, 0x2000#16⟩
  | .add _ _ => ⟨"ADD", 0xF00F#16, 0x8004#16⟩

/-- The four rows in priority order (R43). -/
def opcodeTable : List TableRow :=
  [⟨"HALT", 0xFFFF#16, 0x0000#16⟩, ⟨"RETURN", 0xFFFF#16, 0x00EE#16⟩,
   ⟨"CALL", 0xF000#16, 0x2000#16⟩, ⟨"ADD", 0xF00F#16, 0x8004#16⟩]

/-- The word an opcode-table number stands for: its low `nbits` bits, every bit above them 0. -/
def tableWord (nbits w : Nat) : Word := BitVec.ofNat 16 (w % 2 ^ nbits)

/-- The instruction the decoder reads from the table word laid out in bytes as the hardware stores it. -/
def decodeTableWord (nbits w : Nat) : Option Instr :=
  match decodeBytes [highByte (tableWord nbits w), lowByte (tableWord nbits w)] with
  | .ok (i, _) => some i
  | .error _ => none

end Sys2Proof
end

