-- ==== Sys2Proof/Config.lean ====
section
/-! DEFINITION. The fixed parameters of 00_scope.md R6 that the operations name. The machine has no optional feature, no extension, no implementation-defined value and no free value (R6, 93_implementation_defined.md part 1), so no constant here is without a value. -/

namespace Sys2Proof.Config

/-- `MEM_SIZE`: bytes of memory, addresses 0x000 to 0xFFF (R6, R25). -/
abbrev memSize : Nat := 4096

/-- `STACK_DEPTH`: entries of the call stack, and `SP_MAX`, the cursor of a full one (R6, R16). -/
abbrev stackDepth : Nat := 16

/-- `FLAG_REG`: the register that receives the carry, `VF` (R6, R11). -/
abbrev flagReg : RegIndex := 15

/-- `RESET_PC`: the entry point (R6, R26). -/
abbrev resetPc : Word := 0x0000#16

/-- `PC_STEP`: what a successful fetch adds to `pc` (R6, R49). -/
abbrev pcStep : Word := 2#16

/-- The highest `pc` a fetch accepts (R30). -/
abbrev lastFetch : Word := 0x0FFE#16

end Sys2Proof.Config
end

