-- ==== Sys2Proof/Machine/State.lean ====
section
/-! DEFINITION. The whole architectural state of CORE (10_state.md R9: eight items and nothing else), its reset values (R22) and the reasons a step can stop. -/

namespace Sys2Proof.Machine

/-- `run_state`: the three states of the run loop (R17). Initial state RUNNING. -/
inductive RunState where
  | running
  | halted
  | faulted
deriving DecidableEq, Repr

/-- The four fault categories, and no fifth (60_exceptions.md R71). -/
inductive FaultKind where
  /-- a word that matches no row of the instruction table (R52) -/
  | unimplementedOpcode
  /-- CALL with `sp = 16` (R58) -/
  | stackOverflow
  /-- RETURN with `sp = 0` (R59) -/
  | stackUnderflow
  /-- the fetch at an odd `pc` or at one above 0x0FFE (R29, R30) -/
  | fetchFault
deriving DecidableEq, Repr

/-- `mem` as data: the (address, byte) pairs of the locations that do not hold `unlistedByte`, addresses strictly
rising. It covers the one address space 0x000 to 0xFFF (20_memory.md R25); `Memory.wf` is the form (log entry 4). -/
abbrev Memory := List Host.Cell

/-- What a location that is not listed reads as: the spec's reset value of every byte of `mem` (R22). -/
abbrev unlistedByte : Byte := 0x00#8

/-- The architectural state (R9). -/
structure State where
  /-- `V[0..15]`; `V[15]` is `VF`, the carry flag (R10, R11) -/
  V : Vector Byte 16
  /-- the program counter (R12) -/
  pc : Word
  /-- the 4096 bytes of memory (R14) -/
  mem : Memory
  /-- the 16 return addresses (R15) -/
  stack : Vector Word 16
  /-- the next free entry of the stack, 0 to 16 (R16) -/
  sp : StackCursor
  /-- the run-loop state (R17) -/
  runState : RunState
  /-- `fault_cause`; `none` is code 0, no fault (R18) -/
  faultCause : Option FaultKind
  /-- `fault_word` (R18) -/
  faultWord : Word
deriving DecidableEq, Repr

/-- Why the machine takes no step. In both cases the spec defines none: "No step is defined when `run_state` is HALTED
or FAULTED; in those states nothing changes until reset" (R54). -/
inductive Fault where
  /-- Raised by `cycle` in a HALTED state: the run ended normally (R54, R56). Safe: the hardware changes nothing there. -/
  | halted
  /-- Raised by `cycle` in a FAULTED state, with the fault record: R74's "a model should treat FAULTED as its fault
  outcome, keep it for the rest of the run". Safe: the hardware changes nothing there. -/
  | faulted (cause : Option FaultKind) (word : Word)
deriving DecidableEq, Repr

/-- Refusals. No meaning of this model refuses. -/
inductive Refusal where
  /-- An arm of `exec` that has no meaning yet, by its mnemonic. No arm answers it. Safe: the run stops. -/
  | notModelled (mnemonic : String)
deriving DecidableEq, Repr

/-- The outcome of a step or of a handler. -/
abbrev Result := Host.Outcome State Fault Refusal

/-- Reset: "all fields zeroed", `run_state` RUNNING (R22, R83). Nothing is unspecified after reset. -/
def State.reset : State where
  V := Vector.replicate 16 0x00#8
  pc := Config.resetPc
  mem := []
  stack := Vector.replicate 16 0x0000#16
  sp := 0
  runState := .running
  faultCause := none
  faultWord := 0x0000#16

end Sys2Proof.Machine
end

