-- ==== Sys2Proof/Machine/Ops.lean ====
section
/-! DEFINITION. The shared operations over memory, registers, the call stack and run control. -/

namespace Sys2Proof.Machine

/-! ## Memory (20_memory.md) -/

/-- `mem[a]`: the byte at an address. -/
def Memory.byteAt : Memory → Nat → Byte
  | [], _ => unlistedByte
  | (k, c) :: m, a => if k = a then c else Memory.byteAt m a

/-- `mem[a] <- b`, keeping the canonical form: writing `unlistedByte` removes the entry. -/
def Memory.put : Memory → Nat → Byte → Memory
  | [], a, b => if b = unlistedByte then [] else [(a, b)]
  | (k, c) :: m, a, b =>
    if a < k then (if b = unlistedByte then (k, c) :: m else (a, b) :: (k, c) :: m)
    else if a = k then (if b = unlistedByte then m else (a, b) :: m)
    else (k, c) :: Memory.put m a b

/-- The canonical form from address `lo` on: addresses strictly rising and inside memory, no entry `unlistedByte`. -/
def Memory.wfFrom : Nat → Memory → Bool
  | _, [] => true
  | lo, (k, c) :: m =>
    decide (lo ≤ k) && decide (k < Config.memSize) && decide (c ≠ unlistedByte) && Memory.wfFrom (k + 1) m

/-- The canonical form of memory: equal memories are equal lists. -/
def Memory.wf (m : Memory) : Bool := Memory.wfFrom 0 m

/-- `MemRead(a, 1)`, defined for `a` at most 0xFFF (R27). -/
def memRead1 (m : Memory) (a : Word) : Option Byte :=
  if a.toNat < Config.memSize then some (m.byteAt a.toNat) else none

/-- `MemRead(a, 2) = mem[a] ++ mem[a + 1]`, defined for `a + 1` at most 0xFFF (R27). -/
def memRead2 (m : Memory) (a : Word) : Option Word :=
  if a.toNat + 1 < Config.memSize then some (wordOfBytes (m.byteAt a.toNat) (m.byteAt (a.toNat + 1))) else none

/-- `mem[a]` of a state. -/
def readByte (s : State) (a : Nat) : Byte := s.mem.byteAt a

/-- The one write primitive of memory, a byte wide. No instruction calls it (R32); the loader's port does (R66). -/
def writeByte (s : State) (a : Addr) (b : Byte) : State := { s with mem := s.mem.put a.toNat b }

/-! ## Registers (10_state.md R10, 50_interfaces.md R69) -/

/-- `V[i]`. No register is hard-wired. -/
def readReg (s : State) (i : RegIndex) : Byte := s.V[i.val]

/-- `V[i] <- b`. -/
def writeReg (s : State) (i : RegIndex) (b : Byte) : State := { s with V := s.V.set i.val b }

/-! ## Program counter -/

/-- `pc <- target`. -/
def setPc (s : State) (target : Word) : State := { s with pc := target }

/-! ## Call stack (10_state.md R15, R16, 50_interfaces.md R70) -/

/-- `stack[i]`. -/
def stackEntry (s : State) (i : Fin 16) : Word := s.stack[i.val]

/-- Push: `stack[sp] <- v; sp <- sp + 1`, only when `sp < 16`; `none` when the stack is full. -/
def push (s : State) (v : Word) : Option State :=
  if h : s.sp.val < Config.stackDepth then
    some { s with stack := s.stack.set s.sp.val v, sp := ⟨s.sp.val + 1, Nat.succ_lt_succ h⟩ }
  else none

/-- Pop: `sp <- sp - 1`, delivering `stack[sp]` at the new `sp`, only when `sp > 0`; `none` when the stack is empty.
The entry is not changed (R15, D10). -/
def pop (s : State) : Option (Word × State) :=
  if h : 0 < s.sp.val then
    some (s.stack[s.sp.val - 1], { s with sp := ⟨s.sp.val - 1, by omega⟩ })
  else none

/-! ## Run control (60_exceptions.md R74, 00_scope.md R8)

There is no return from a fault: no instruction leaves FAULTED or HALTED (R75). -/

/-- `raise <Fault>(info)`: the one way a fault is taken. It writes `run_state`, `fault_cause` and, when `info` is given,
`fault_word`; nothing is saved and control goes nowhere (R74). -/
def raiseFault (k : FaultKind) (info : Option Word) (s : State) : State :=
  { s with runState := .faulted, faultCause := some k, faultWord := info.getD s.faultWord }

/-- `halt`: `run_state <- HALTED` (R8). -/
def haltRun (s : State) : State := { s with runState := .halted }

/-! ## The host's view of run control (R17, R18, R66) -/

/-- The 2 bits of `run_state` (R17); 0b11 is not used. -/
def RunState.code : RunState → BitVec 2
  | .running => 0b00#2
  | .halted => 0b01#2
  | .faulted => 0b10#2

/-- The 3 bits of `fault_cause` (R18, R71); 5 to 7 never occur. -/
def causeCode : Option FaultKind → BitVec 3
  | none => 0#3
  | some .unimplementedOpcode => 1#3
  | some .stackOverflow => 2#3
  | some .stackUnderflow => 3#3
  | some .fetchFault => 4#3

end Sys2Proof.Machine
end

