-- ==== Sys2Proof/Machine/Flags.lean ====
section
/-! DEFINITION. The 8-bit adder and the one flag of CORE, the carry (43_add.md R62, R64; 10_state.md R11). -/

namespace Sys2Proof.Machine

/-- The exact sum, a natural number of 0 to 510 (R62). -/
def exactSum (a b : Byte) : Nat := a.toNat + b.toNat

/-- `sum mod 256` (R62). -/
def sumLow (a b : Byte) : Byte := BitVec.ofNat 8 (exactSum a b)

/-- The value of `VF` after ADD: 1 if the exact sum is 256 or more, else 0 (R11, R62). -/
def carryFlag (a b : Byte) : Byte := if 256 ≤ exactSum a b then 0x01#8 else 0x00#8

end Sys2Proof.Machine
end

