-- ==== Sys2Proof/Machine/Operands.lean ====
section
/-! DEFINITION. The three operand kinds of 30_encoding.md R42 and no others: register index x, register index y, address. There is no immediate and nothing is sign-extended. -/

namespace Sys2Proof.Machine

/-- The value of a register operand: the index as it stands selects `V[i]` (R42). -/
def regOperand (s : State) (i : RegIndex) : Byte := readReg s i

/-- The value an address operand gives `pc`: `zext_16(addr)`, absolute, not scaled, not added to `pc` (R42). -/
def addrOperand (addr : Addr) : Word := addr.zeroExtend 16

end Sys2Proof.Machine
end

