-- ==== Sys2Proof/Machine/Arith.lean ====
section
/-! DEFINITION. Arithmetic: ADD (43_add.md). -/

namespace Sys2Proof.Machine

/-- ADD Vx, Vy (R62, R63): both reads before both writes, the flag write to `V[15]` last and unconditional. -/
def execAdd (x y : RegIndex) (s : State) : Result :=
  let a := regOperand s x
  let b := regOperand s y
  .next (writeReg (writeReg s x (sumLow a b)) Config.flagReg (carryFlag a b))

end Sys2Proof.Machine
end

