-- ==== Sys2Proof/Machine/Control.lean ====
section
/-! DEFINITION. Control transfer: CALL and RETURN (42_call_return.md). Each handler is entered after the fetch has advanced `pc`, so `pc` is the address of the instruction after its own. -/

namespace Sys2Proof.Machine

/-- CALL addr (R58): the overflow test before any write, then the push of `pc` at the old `sp`, then the jump. The
target is not checked (D15). The recorded word is the instruction's own, the only one that decodes to it (log entry 7). -/
def execCall (addr : Addr) (s : State) : Result :=
  match push s s.pc with
  | none => .next (raiseFault .stackOverflow (some (encode (.call addr))) s)
  | some s' => .next (setPc s' (addrOperand addr))

/-- RETURN (R59): the underflow test, then `sp - 1`, then `pc` from the entry at the new `sp`. -/
def execRet (s : State) : Result :=
  match pop s with
  | none => .next (raiseFault .stackUnderflow (some (encode .ret)) s)
  | some (target, s') => .next (setPc s' target)

end Sys2Proof.Machine
end

