-- ==== Sys2Proof/Machine/System.lean ====
section
/-! DEFINITION. The one system instruction, HALT (41_halt.md). -/

namespace Sys2Proof.Machine

/-- HALT (R56): stop the run normally. `pc` keeps the value the fetch gave it. -/
def execHalt (s : State) : Result := .next (haltRun s)

end Sys2Proof.Machine
end

