-- ==== Sys2Proof/Machine/Dispatch.lean ====
section
/-! DEFINITION. The dispatch: one arm per constructor of Instr (40_step_fetch_decode_dispatch.md R51). The state given is the one after the fetch (log entry 2). -/

namespace Sys2Proof.Machine

def exec (i : Instr) (s : State) : Host.Outcome State Fault Refusal :=
  match i with
  | .halt => Sys2Proof.Machine.execHalt s
  | .ret => Sys2Proof.Machine.execRet s
  | .call addr => Sys2Proof.Machine.execCall addr s
  | .add x y => Sys2Proof.Machine.execAdd x y s

end Sys2Proof.Machine
end

