-- ==== Sys2Proof/Machine/Fetch.lean ====
section
/-! DEFINITION. fetch_unit (40_step_fetch_decode_dispatch.md R49, 20_memory.md R29, R30), and the placing of one word where the next fetch reads it. -/

namespace Sys2Proof.Machine

/-- `fetch_ok(pc) = (pc[0] = 0) and (pc ≤ 0x0FFE)` (R30). -/
def fetchOk (pc : Word) : Bool := decide (pc.getLsbD 0 = false) && decide (pc ≤ Config.lastFetch)

/-- The word a fetch reads; `none` is the fetch fault, where no byte is read (R49, D6). -/
def fetchWord (s : State) : Option Word :=
  if fetchOk s.pc then memRead2 s.mem s.pc else none

/-- The state after a successful fetch: `pc <- pc + 2` (R49). -/
def advancePc (s : State) : State := setPc s (s.pc + Config.pcStep)

/-- A state from which a step fetches: `s` itself where it does, else with `pc` at the entry point if its own is not a
legal fetch address, and RUNNING with an empty fault record (log entry 8). -/
def readyToFetch (s : State) : State :=
  if s.runState = .running ∧ fetchOk s.pc = true then s
  else { s with
    pc := if fetchOk s.pc then s.pc else Config.resetPc
    runState := .running
    faultCause := none
    faultWord := 0x0000#16 }

/-- The word `w` stored, high byte first, where the next step fetches. -/
def placeFetchWord (s : State) (w : Word) : State :=
  let r := readyToFetch s
  { r with mem := (r.mem.put r.pc.toNat (highByte w)).put (r.pc.toNat + 1) (lowByte w) }

end Sys2Proof.Machine
end

