-- ==== Sys2Proof/Machine/Cycle.lean ====
section
/-! DEFINITION. One step: fetch, decode, dispatch (40_step_fetch_decode_dispatch.md R48), and where no step is defined (R54). -/

namespace Sys2Proof.Machine

/-- The step after a successful fetch of `w`, in the state with `pc` advanced: the matched handler, or the
unimplemented-opcode fault with the word (R51, R52). -/
def dispatch (w : Word) (s : State) : Result :=
  match decode w with
  | .ok i => exec i s
  | .error _ => .next (raiseFault .unimplementedOpcode (some w) s)

/-- A step of a RUNNING machine (R48, R49). A failed fetch changes nothing but the fault record. -/
def runningStep (s : State) : Result :=
  match fetchWord s with
  | none => .next (raiseFault .fetchFault none s)
  | some w => dispatch w (advancePc s)

/-- A step is defined only when `run_state` is RUNNING (R48, R54; log entry 1). -/
def cycle (s : State) : Result :=
  match s.runState with
  | .running => runningStep s
  | .halted => .fault .halted
  | .faulted => .fault (.faulted s.faultCause s.faultWord)

end Sys2Proof.Machine
end

