-- ==== Sys2Proof/Machine/Step.lean ====
section
/-! DEFINITION. The step function and the placing of an opcode-table word under it. -/

namespace Sys2Proof.Machine

/-- One step of CORE (40_step_fetch_decode_dispatch.md R48). -/
def step (s : State) : Host.Outcome State Fault Refusal := cycle s

/-- `s` with the instruction of an opcode-table word stored where `step` fetches next (log entry 8). -/
def State.withFetchWord (s : State) (nbits w : Nat) : State := placeFetchWord s (tableWord nbits w)

end Sys2Proof.Machine
end

