-- ==== Sys2Proof/Machine/Blocks.lean ====
section
/-! DEFINITION. The same step described by the sub-blocks of 00_scope.md R2 and the signals between them (50_interfaces.md R68, R69, R70): one structure for what each sub-block sends, one function for each sub-block. A data signal carries what its row of R68's table says whatever the instruction; the enables alone depend on it, and `pc_target`, whose row gives no value for three kinds (log entry 14). `step` does not call this description; a statement says that the two agree. The division into sub-blocks changes no behaviour (R2). -/

namespace Sys2Proof.Machine

/-! ## fetch_unit and memory -/

/-- What fetch_unit sends when a step begins (R68). -/
structure FetchOut where
  /-- to memory: the two byte addresses, issued only when `fetch_ok(pc)` -/
  fAddr : Option (Addr × Addr)
  /-- to run_control -/
  fetchFault : Bool
  /-- to dispatch_alu: the value `pc` has during execute -/
  pcNext : Word
deriving DecidableEq, Repr

/-- fetch_unit at `pc`. -/
def blockFetchUnit (pc : Word) : FetchOut where
  fAddr := if fetchOk pc then some (pc.extractLsb' 0 12, pc.extractLsb' 0 12 + 1#12) else none
  fetchFault := !fetchOk pc
  pcNext := pc + 2#16

/-- memory to fetch_unit: `f_data`, the byte at each address. No instruction writes memory (R32). -/
def blockMemory (m : Memory) (a : Addr × Addr) : Byte × Byte := (m.byteAt a.1.toNat, m.byteAt a.2.toNat)

/-- fetch_unit to decoder: `w`, the first byte in the high-order place. -/
def blockAssemble (f : Byte × Byte) : Word := f.1 ++ f.2

/-! ## decoder -/

/-- `kind`: the instruction-type classification, 5 values (R68). -/
inductive Kind where
  | halt
  | ret
  | call
  | add
  | unimpl
deriving DecidableEq, Repr

/-- What decoder sends to dispatch_alu: `class`, `x`, `y`, `d`, `addr` and `kind` (R68). -/
structure DecoderOut where
  fields : Fields
  kind : Kind
deriving DecidableEq, Repr

/-- The classification by the mask and match rows of R43. -/
def blockKind (w : Word) : Kind :=
  if w &&& 0xFFFF#16 = 0x0000#16 then .halt
  else if w &&& 0xFFFF#16 = 0x00EE#16 then .ret
  else if w &&& 0xF000#16 = 0x2000#16 then .call
  else if w &&& 0xF00F#16 = 0x8004#16 then .add
  else .unimpl

/-- decoder, combinational. -/
def blockDecoder (w : Word) : DecoderOut := ⟨splitFields w, blockKind w⟩

/-! ## register_file: its reads -/

/-- dispatch_alu to register_file: `ra_idx = x`, `rb_idx = y` (R68). -/
structure ReadIndices where
  raIdx : RegIndex
  rbIdx : RegIndex
deriving DecidableEq, Repr

/-- register_file to dispatch_alu: `ra`, `rb`, the values before the step (R68). -/
structure ReadData where
  ra : Byte
  rb : Byte
deriving DecidableEq, Repr

/-- dispatch_alu's read indices. -/
def blockReadIndices (d : DecoderOut) : ReadIndices := ⟨regOfNibble d.fields.x, regOfNibble d.fields.y⟩

/-- register_file's two combinational read ports (R69). -/
def blockRead (V : Vector Byte 16) (i : ReadIndices) : ReadData := ⟨V[i.raIdx.val], V[i.rbIdx.val]⟩

/-! ## call_stack: its status -/

/-- call_stack to dispatch_alu (R68). -/
structure StackStatus where
  full : Bool
  empty : Bool
  /-- valid when `sp > 0` -/
  top : Word
deriving DecidableEq, Repr

/-- call_stack's status. `invalid` is what `top` carries when `sp = 0`, where R68 calls it not valid: any word. -/
def blockStackStatus (invalid : Word) (stack : Vector Word 16) (sp : StackCursor) : StackStatus where
  full := decide (sp.val = 16)
  empty := decide (sp.val = 0)
  top := if h : 0 < sp.val then stack[sp.val - 1]'(by omega) else invalid

/-! ## dispatch_alu -/

/-- What dispatch_alu receives in a step (R68). -/
structure AluIn where
  dec : DecoderOut
  pcNext : Word
  reads : ReadData
  stk : StackStatus
deriving DecidableEq, Repr

/-- What dispatch_alu drives in a step, beside the read indices (R68). -/
structure AluOut where
  /-- to register_file, with `wrIdx` and `wrData`: the result write, ADD only -/
  wrEn : Bool
  wrIdx : RegIndex
  wrData : Byte
  /-- to register_file, with `flagData`: the write of `V[15]` -/
  flagEn : Bool
  flagData : BitVec 1
  /-- to call_stack, with `pushData`: CALL with `sp < 16` -/
  pushEn : Bool
  pushData : Word
  /-- to call_stack: RETURN with `sp > 0` -/
  popEn : Bool
  /-- to fetch_unit, with `pcTarget`, which is read only where `pcLoad` -/
  pcLoad : Bool
  pcTarget : Word
  /-- to run_control: HALT -/
  doHalt : Bool
  /-- to run_control, with the word `w`: faults 1 to 3; `none` is code 0 -/
  faultCode : Option FaultKind
  w : Word
deriving DecidableEq, Repr

/-- The 9-bit sum of the adder: `sum[7:0]` is the result and `sum[8]` the carry (R62, R68). -/
def blockSum (r : ReadData) : BitVec 9 := r.ra.zeroExtend 9 + r.rb.zeroExtend 9

/-- The fault dispatch_alu raises. When `full` and a CALL arrives, or `empty` and a RETURN arrives, it raises one and
sends neither `push_en` nor `pop_en` (R70). -/
def blockFaultCode (i : AluIn) : Option FaultKind :=
  match i.dec.kind with
  | .halt => none
  | .ret => if i.stk.empty then some .stackUnderflow else none
  | .call => if i.stk.full then some .stackOverflow else none
  | .add => none
  | .unimpl => some .unimplementedOpcode

/-- dispatch_alu, combinational (R68). It has `w` from the fields decoder sends, which hold all its bits (R40; DEDUCED,
log entry 14). DESIGN CHOICE (log entry 14): R68 gives `pc_target` for CALL and RETURN only; for HALT, ADD and UNIMPL, where
`pc_load` is 0, it carries `top` here, and nothing reads it. -/
def blockAlu (i : AluIn) : AluOut where
  wrEn := decide (i.dec.kind = .add)
  wrIdx := regOfNibble i.dec.fields.x
  wrData := (blockSum i.reads).extractLsb' 0 8
  flagEn := decide (i.dec.kind = .add)
  flagData := (blockSum i.reads).extractLsb' 8 1
  pushEn := decide (i.dec.kind = .call) && !i.stk.full
  pushData := i.pcNext
  popEn := decide (i.dec.kind = .ret) && !i.stk.empty
  pcLoad := (decide (i.dec.kind = .call) && !i.stk.full) || (decide (i.dec.kind = .ret) && !i.stk.empty)
  pcTarget := if i.dec.kind = .call then i.dec.fields.addr.zeroExtend 16 else i.stk.top
  doHalt := decide (i.dec.kind = .halt)
  faultCode := blockFaultCode i
  w := joinFields i.dec.fields

/-! ## What each sub-block that owns state makes of the signals -/

/-- register_file: the result write, then the flag write hardwired to index 15, which has priority (R69). -/
def blockRegisterFile (V : Vector Byte 16) (o : AluOut) : Vector Byte 16 :=
  let V := if o.wrEn then V.set o.wrIdx.val o.wrData else V
  if o.flagEn then V.set 15 (o.flagData.zeroExtend 8) else V

/-- call_stack: the entries after a step. Push and pop never happen in the same step (R70). -/
def blockStackEntries (stack : Vector Word 16) (sp : StackCursor) (o : AluOut) : Vector Word 16 :=
  if h : o.pushEn = true ∧ sp.val < 16 then stack.set sp.val o.pushData h.2 else stack

/-- call_stack: the cursor after a step (R70). -/
def blockCursor (sp : StackCursor) (o : AluOut) : StackCursor :=
  if h : o.pushEn = true ∧ sp.val < 16 then ⟨sp.val + 1, Nat.succ_lt_succ h.2⟩
  else if o.popEn = true ∧ 0 < sp.val then ⟨sp.val - 1, Nat.lt_of_le_of_lt (Nat.sub_le _ _) sp.isLt⟩
  else sp

/-- fetch_unit: `pc` after a step that fetched a word. -/
def blockNextPc (f : FetchOut) (o : AluOut) : Word := if o.pcLoad then o.pcTarget else f.pcNext

/-- The state run_control owns (R2). -/
structure RunRecord where
  runState : RunState
  faultCause : Option FaultKind
  faultWord : Word
deriving DecidableEq, Repr

/-- run_control: `fetch_fault` from fetch_unit; `do_halt`, `fault_code` and `w` from dispatch_alu, which sends none in a
step that fetches no word. -/
def blockRunControl (r : RunRecord) (fetchFault : Bool) (o : Option AluOut) : RunRecord :=
  if fetchFault then { r with runState := .faulted, faultCause := some .fetchFault }
  else match o with
    | none => r
    | some o =>
      match o.faultCode with
      | some k => ⟨.faulted, some k, o.w⟩
      | none => if o.doHalt then { r with runState := .halted } else r

/-! ## The step -/

/-- The signals into dispatch_alu in a step that fetched `w`. -/
def blockAluIn (invalid : Word) (s : State) (w : Word) : AluIn where
  dec := blockDecoder w
  pcNext := (blockFetchUnit s.pc).pcNext
  reads := blockRead s.V (blockReadIndices (blockDecoder w))
  stk := blockStackStatus invalid s.stack s.sp

/-- What dispatch_alu drives in a step; `none` in one that fetches no word. -/
def blockDriven (invalid : Word) (s : State) : Option AluOut :=
  (blockFetchUnit s.pc).fAddr.map fun a => blockAlu (blockAluIn invalid s (blockAssemble (blockMemory s.mem a)))

/-- A step of a RUNNING machine as its sub-blocks make it. -/
def blockStep (invalid : Word) (s : State) : State :=
  let f := blockFetchUnit s.pc
  let o := blockDriven invalid s
  let r := blockRunControl ⟨s.runState, s.faultCause, s.faultWord⟩ f.fetchFault o
  { V := o.elim s.V (blockRegisterFile s.V)
    pc := o.elim s.pc (blockNextPc f)
    mem := s.mem
    stack := o.elim s.stack (blockStackEntries s.stack s.sp)
    sp := o.elim s.sp (blockCursor s.sp)
    runState := r.runState
    faultCause := r.faultCause
    faultWord := r.faultWord }

end Sys2Proof.Machine
end

