-- ==== Sys2Proof/Machine/Loader.lean ====
section
/-! DEFINITION. The host interface that touches state: reset, the loader's two write ports, the launch state and the status outputs (50_interfaces.md R66, R67; 70_reset_and_hazards.md R83 to R85). -/

namespace Sys2Proof.Machine

/-- One use of a loader port in the LOAD phase (R66). The loader has no port to `pc`, `sp`, `stack`, `run_state` or the
fault record. -/
inductive LoaderWrite where
  /-- `ld_mem_we`: `mem[ld_mem_addr] <- ld_mem_data` -/
  | mem (addr : Addr) (data : Byte)
  /-- `ld_reg_we`: `V[ld_reg_idx] <- ld_reg_data` -/
  | reg (idx : RegIndex) (data : Byte)
deriving DecidableEq, Repr

/-- The effect of one loader write (R66). -/
def loaderWrite (s : State) : LoaderWrite → State
  | .mem a b => writeByte s a b
  | .reg i b => writeReg s i b

/-- The launch state: the reset state with the loader's writes applied in order (R67, R85). -/
def launch (ws : List LoaderWrite) : State := ws.foldl loaderWrite State.reset

/-- `rst`: every piece of state to its reset value, whatever it was (R66, R83). -/
def applyReset (_ : State) : State := State.reset

/-- The status outputs of the block (R66). -/
structure StatusPorts where
  runState : BitVec 2
  faultCause : BitVec 3
  faultWord : Word
deriving DecidableEq, Repr

/-- The status outputs follow the registers of R17 and R18. -/
def statusPorts (s : State) : StatusPorts where
  runState := s.runState.code
  faultCause := causeCode s.faultCause
  faultWord := s.faultWord

end Sys2Proof.Machine
end

