-- ==== Sys2Proof/Machine/Protocol.lean ====
section
/-! DEFINITION. The protocol between host and CORE in its three phases (50_interfaces.md R67). It lies around the machine: `run_en` is not in `State` (R67), and a step here is `step`. -/

namespace Sys2Proof.Machine

/-- The phases of R67: LOAD while `run_en = 0`, RUN while `run_en = 1`, DONE once `run_state` is not RUNNING. -/
inductive Phase where
  | load
  | run
  | done
deriving DecidableEq, Repr

/-- CORE with the phase its host is in. -/
structure HostedCore where
  phase : Phase
  core : State
deriving DecidableEq, Repr

/-- What can happen to a hosted CORE: the host's three moves, and one step of CORE. -/
inductive HostEvent where
  | rst
  | write (w : LoaderWrite)
  | raiseRunEn
  | tick
deriving DecidableEq, Repr

/-- The effect of an event; `none` where the spec gives it no meaning: a write or a change of `run_en` outside LOAD
(D12), a step before RUN or after it (R66, R54). A reset starts the protocol again from any phase. -/
def hostedMove (h : HostedCore) : HostEvent → Option HostedCore
  | .rst => some ⟨.load, applyReset h.core⟩
  | .write w =>
    match h.phase with
    | .load => some ⟨.load, loaderWrite h.core w⟩
    | .run => none
    | .done => none
  | .raiseRunEn =>
    match h.phase with
    | .load => some ⟨.run, h.core⟩
    | .run => none
    | .done => none
  | .tick =>
    match h.phase with
    | .load => none
    | .run =>
      match step h.core with
      | .next t => some ⟨if t.runState = .running then .run else .done, t⟩
      | .fault _ => none
      | .refused _ => none
    | .done => none

/-- Events one after another. -/
def hostedMoves : HostedCore → List HostEvent → Option HostedCore
  | h, [] => some h
  | h, e :: es =>
    match hostedMove h e with
    | some h' => hostedMoves h' es
    | none => none

end Sys2Proof.Machine
end

