-- ==== Sys2Proof/Safety.lean ====
section
/-! DEFINITION. What the statements speak of: the word a fetch reads, the invariants of reachable states (10_state.md R23), a normal end, and the step as the one block of 40_step_fetch_decode_dispatch.md R53. -/

namespace Sys2Proof.Machine

/-! ## What stays the same -/

/-- Every register holds what it held. -/
abbrev SameRegisters (s t : State) : Prop := ∀ i : RegIndex, readReg t i = readReg s i

/-- Every byte of memory reads as before. -/
abbrev SameBytes (s t : State) : Prop := ∀ a : Nat, readByte t a = readByte s a

/-- Every entry of the call stack holds what it held. -/
abbrev SameStackEntries (s t : State) : Prop := ∀ i : Fin 16, stackEntry t i = stackEntry s i

/-- The run state and the fault record are as before. -/
abbrev SameRunControl (s t : State) : Prop :=
  t.runState = s.runState ∧ t.faultCause = s.faultCause ∧ t.faultWord = s.faultWord

/-- The fault `k` was raised with the word `w` from `s`, and everything else but `pc` is as in `s` (R74). -/
abbrev FaultTaken (k : FaultKind) (w : Word) (s t : State) : Prop :=
  t.runState = .faulted ∧ t.faultCause = some k ∧ t.faultWord = w ∧ t.sp = s.sp ∧
  SameRegisters s t ∧ SameBytes s t ∧ SameStackEntries s t

/-! ## What a step finds -/

/-- `mem[pc] ++ mem[pc + 1]`, the word at `pc` (R49). -/
def wordAtPc (s : State) : Word := readByte s s.pc.toNat ++ readByte s (s.pc.toNat + 1)

/-- `fetch_ok` fails (R29, R30): `pc` is odd, or above 0x0FFE. -/
abbrev FetchFails (s : State) : Prop := s.pc.getLsbD 0 = true ∨ s.pc.toNat > 0x0FFE

/-- `fetch_ok` holds (R30): `pc` is even and at most 0x0FFE. -/
abbrev FetchLegal (s : State) : Prop := s.pc.getLsbD 0 = false ∧ s.pc.toNat ≤ 0x0FFE

/-- A word that matches no row of the instruction table (R43, R45). -/
abbrev MatchesNoRow (w : Word) : Prop :=
  w &&& 0xFFFF#16 ≠ 0x0000#16 ∧ w &&& 0xFFFF#16 ≠ 0x00EE#16 ∧ w &&& 0xF000#16 ≠ 0x2000#16 ∧
  w &&& 0xF00F#16 ≠ 0x8004#16

/-! ## Invariants -/

/-- A bit vector is even: its bit 0 is 0. -/
abbrev IsEven (v : Word) : Prop := v.getLsbD 0 = false

/-- R23 item 2: `pc ≤ 0x1000`. -/
abbrev PcInRange (s : State) : Prop := s.pc.toNat ≤ 0x1000

/-- R23 item 3: every `stack[i]` is even and in 0x0000 to 0x1000. -/
abbrev StackEntriesLegal (s : State) : Prop :=
  ∀ i : Fin 16, IsEven (stackEntry s i) ∧ (stackEntry s i).toNat ≤ 0x1000

/-- R23 item 6 and R18: a fault is recorded exactly in FAULTED; with no fault, and after a FetchFault, the recorded word
is 0x0000. -/
abbrev RecordConsistent (s : State) : Prop :=
  (s.faultCause ≠ none ↔ s.runState = .faulted) ∧
  (s.faultCause = none ∨ s.faultCause = some .fetchFault → s.faultWord = 0x0000#16)

/-- The invariant of reachable states: R23 items 2, 3 and 6, with memory in its canonical form (log entry 4). Item 1
is the type of `sp`. -/
abbrev Inv (s : State) : Prop :=
  PcInRange s ∧ StackEntriesLegal s ∧ RecordConsistent s ∧ s.mem.wf = true

/-- A normal final state: HALTED with no fault recorded (R54, R74). -/
abbrev NormalEnd (s : State) : Prop := s.runState = .halted ∧ s.faultCause = none

/-- `VF` holds 0 or 1 (R11, R23 item 5). -/
abbrev FlagIsBit (s : State) : Prop := readReg s 15 = 0x00#8 ∨ readReg s 15 = 0x01#8

/-- The ADD arm of R53's block: `V[x] <- sum mod 256`, then `V[15] <- (1 if sum ≥ 256 else 0)`. -/
def wholeAdd (V : Vector Byte 16) (x y : Fin 16) : Vector Byte 16 :=
  let sum := V[x.val].toNat + V[y.val].toNat
  (V.set x.val (BitVec.ofNat 8 (sum % 256))).set 15 (if 256 ≤ sum then 1#8 else 0#8)

/-- R53: the complete step function in one block, for a RUNNING state, over the fields as numbers. -/
def wholeStep (s : State) : State :=
  if s.pc.toNat % 2 = 1 ∨ s.pc.toNat > 0x0FFE then
    { s with runState := .faulted, faultCause := some .fetchFault }
  else
    let w : Word := s.mem.byteAt s.pc.toNat ++ s.mem.byteAt (s.pc.toNat + 1)
    let next : Word := BitVec.ofNat 16 (s.pc.toNat + 2)
    let cls := w.toNat / 4096
    let d := w.toNat % 16
    let x : Fin 16 := ⟨w.toNat / 256 % 16, Nat.mod_lt _ (by decide)⟩
    let y : Fin 16 := ⟨w.toNat / 16 % 16, Nat.mod_lt _ (by decide)⟩
    if w = 0x0000#16 then
      { s with pc := next, runState := .halted }
    else if w = 0x00EE#16 then
      if s.sp.val = 0 then
        { s with pc := next, runState := .faulted, faultCause := some .stackUnderflow, faultWord := w }
      else
        { s with pc := s.stack[s.sp.val - 1], sp := ⟨s.sp.val - 1, by omega⟩ }
    else if cls = 0x2 then
      if h : s.sp.val < 16 then
        { s with
          stack := s.stack.set s.sp.val next
          sp := ⟨s.sp.val + 1, by omega⟩
          pc := BitVec.ofNat 16 (w.toNat % 4096) }
      else
        { s with pc := next, runState := .faulted, faultCause := some .stackOverflow, faultWord := w }
    else if cls = 0x8 ∧ d = 0x4 then
      { s with pc := next, V := wholeAdd s.V x y }
    else
      { s with pc := next, runState := .faulted, faultCause := some .unimplementedOpcode, faultWord := w }

/-- `t` is the state after `n` steps from `s`, none of which stopped. -/
def Reaches : Nat → State → State → Prop
  | 0, s, t => s = t
  | n + 1, s, t => ∃ u, step s = .next u ∧ Reaches n u t

end Sys2Proof.Machine
end

