-- ==== Sys2Proof/Certificates/Slice0/Obligations.lean ====
section
/-! DEFINITION. The statements for the provers. Each docstring names the rule of spec/ the statement formalises, or says that a clause is the model's choice and names its log entry. -/

open Sys2Proof Sys2Proof.Machine

/-! ## Reset, loader, launch -/

/-- R22: after reset every register, every byte, every stack entry, `pc`, `sp` and the fault record are zero, `run_state`
is RUNNING (0b00), and the word at address 0 is HALT. -/
def Obligations.ResetZeroesEveryPieceOfState : Prop :=
  ∀ s : State,
    let t := applyReset s
    t = State.reset ∧ (∀ i, readReg t i = 0x00#8) ∧ t.pc = 0x0000#16 ∧ (∀ a, readByte t a = 0x00#8) ∧
    (∀ i, stackEntry t i = 0x0000#16) ∧ t.sp.val = 0 ∧
    t.runState = .running ∧ t.runState.code = 0b00#2 ∧ t.faultCause = none ∧ causeCode t.faultCause = 0#3 ∧
    t.faultWord = 0x0000#16 ∧ decode (wordAtPc t) = .ok .halt

/-- R85: for every memory image and every register image the loader has writes that give the launch state of that image:
`mem` and `V` the image, everything else at reset. And whatever the loader writes, everything but `mem` and `V` is at reset. -/
def Obligations.LaunchStateIsResetWithTheLoadersImage : Prop :=
  (∀ (imgMem : Addr → Byte) (imgV : RegIndex → Byte), ∃ ws : List LoaderWrite,
    (∀ a : Addr, readByte (launch ws) a.toNat = imgMem a) ∧ (∀ i, readReg (launch ws) i = imgV i)) ∧
  (∀ ws : List LoaderWrite,
    (launch ws).pc = 0x0000#16 ∧ (launch ws).sp.val = 0 ∧ (∀ i, stackEntry (launch ws) i = 0x0000#16) ∧
    (launch ws).runState = .running ∧ (launch ws).faultCause = none ∧ (launch ws).faultWord = 0x0000#16)

/-- R67, the LOAD phase: the last value written to a location wins, every other location keeps what it held, and a
location that is not written keeps its reset value 0. -/
def Obligations.LastLoaderWriteToALocationWins : Prop :=
  (∀ (ws : List LoaderWrite) (a : Addr) (b : Byte),
    readByte (launch (ws ++ [.mem a b])) a.toNat = b ∧
    (∀ a' : Nat, a' ≠ a.toNat → readByte (launch (ws ++ [.mem a b])) a' = readByte (launch ws) a') ∧
    SameRegisters (launch ws) (launch (ws ++ [.mem a b]))) ∧
  (∀ (ws : List LoaderWrite) (i : RegIndex) (b : Byte),
    readReg (launch (ws ++ [.reg i b])) i = b ∧
    (∀ j, j ≠ i → readReg (launch (ws ++ [.reg i b])) j = readReg (launch ws) j) ∧
    SameBytes (launch ws) (launch (ws ++ [.reg i b]))) ∧
  (∀ (ws : List LoaderWrite) (a : Addr), (∀ b, LoaderWrite.mem a b ∉ ws) → readByte (launch ws) a.toNat = 0x00#8) ∧
  (∀ (ws : List LoaderWrite) (i : RegIndex), (∀ b, LoaderWrite.reg i b ∉ ws) → readReg (launch ws) i = 0x00#8)

/-- R67: the protocol LOAD, RUN, DONE collapses to the launch state, the run and its final state. From LOAD after reset,
the writes `ws`, run enable and `n` steps lead exactly to the states of the run from `launch ws`, in DONE once the machine
is not RUNNING; a reset starts the protocol again from any phase; only LOAD has a loader write, only RUN a step. -/
def Obligations.HostProtocolCollapsesToLaunchAndRun : Prop :=
  (∀ (ws : List LoaderWrite) (n : Nat) (h : HostedCore),
    hostedMoves ⟨.load, State.reset⟩ (ws.map .write ++ .raiseRunEn :: List.replicate n .tick) = some h ↔
      Reaches n (launch ws) h.core ∧ h.phase = (if h.core.runState = .running then .run else .done)) ∧
  (∀ h : HostedCore, hostedMove h .rst = some ⟨.load, State.reset⟩) ∧
  (∀ (h : HostedCore) (w : LoaderWrite), (∃ h', hostedMove h (.write w) = some h') ↔ h.phase = .load) ∧
  (∀ h : HostedCore, (∃ h', hostedMove h .tick = some h') ↔ h.phase = .run ∧ h.core.runState = .running)

/-! ## Words and instructions -/

/-- R40: the five fields of the word of two bytes, by the byte each comes from and by the rule's formulas. -/
def Obligations.FieldsOfAWordAreItsNibbles : Prop :=
  ∀ hi lo : Byte,
    let w := wordOfBytes hi lo
    let f := splitFields w
    (f.cls = hi.extractLsb' 4 4 ∧ f.x = hi.extractLsb' 0 4 ∧ f.y = lo.extractLsb' 4 4 ∧ f.d = lo.extractLsb' 0 4 ∧
      f.addr = hi.extractLsb' 0 4 ++ lo) ∧
    f.addr = f.x ++ f.y ++ f.d ∧
    f.cls.toNat = w.toNat >>> 12 ∧ f.x.toNat = (w.toNat >>> 8) &&& 0xF ∧ f.y.toNat = (w.toNat >>> 4) &&& 0xF ∧
    f.d.toNat = w.toNat &&& 0xF ∧ f.addr.toNat = w.toNat &&& 0xFFF

/-- R43: a word decodes to the instruction of the row whose mask and match select it, with the row's operand fields, and
to no instruction where no row selects it. -/
def Obligations.DecoderFollowsTheMaskAndMatchTable : Prop :=
  ∀ w : Word,
    (w &&& 0xFFFF#16 = 0x0000#16 → decode w = .ok .halt) ∧
    (w &&& 0xFFFF#16 = 0x00EE#16 → decode w = .ok .ret) ∧
    (w &&& 0xF000#16 = 0x2000#16 → decode w = .ok (.call (w.extractLsb' 0 12))) ∧
    (w &&& 0xF00F#16 = 0x8004#16 →
      decode w = .ok (.add (w.extractLsb' 8 4).toFin (w.extractLsb' 4 4).toFin)) ∧
    (MatchesNoRow w → decode w = .error (.unimplemented w))

/-- R45: of the 65536 words, 61182 are no instruction. -/
def Obligations.UnimplementedWordsNumber61182 : Prop :=
  ((Finset.range 65536).filter (fun n : Nat =>
    decode (BitVec.ofNat 16 n) = .error (.unimplemented (BitVec.ofNat 16 n)))).card = 61182

/-- Decode and encode agree: every instruction, with every operand at every value, is what its word decodes to, also as
two bytes in front of any others (R39, R43). -/
def Obligations.DecodeOfEncodeIsTheInstruction : Prop :=
  ∀ (i : Instr) (rest : List Byte),
    decode (encode i) = .ok i ∧ decodeBytes (encodeBytes i ++ rest) = .ok (i, rest)

/-- Each word has one meaning: a word that decodes is the word of what it decodes to, so the word recorded by a stack
fault is the word fetched (log entry 7). -/
def Obligations.EncodeOfDecodeIsTheWord : Prop :=
  ∀ (w : Word) (i : Instr), decode w = .ok i → encode i = w

/-- R47's table: the word of each assembler line, the condition on its operands, and the two bytes, high byte first. That
`asmCall` and `asmAdd` answer none where the condition fails is the model's choice (log entry 3). -/
def Obligations.AssemblerLinesGiveTheTablesWords : Prop :=
  (encode .halt).toNat = 0x0000 ∧ (encode .ret).toNat = 0x00EE ∧
  (∀ a : Nat, a ≤ 0xFFF → ∃ i, asmCall a = some i ∧ (encode i).toNat = 0x2000 + a) ∧
  (∀ a : Nat, 0xFFF < a → asmCall a = none) ∧
  (∀ x y : Nat, x ≤ 0xF → y ≤ 0xF →
    ∃ i, asmAdd x y = some i ∧ (encode i).toNat = 0x8004 + x * 256 + y * 16) ∧
  (∀ x y : Nat, 0xF < x ∨ 0xF < y → asmAdd x y = none) ∧
  (∀ i : Instr, ∃ hi lo : Byte, encodeBytes i = [hi, lo] ∧ (encode i).toNat = hi.toNat * 256 + lo.toNat)

/-- Vectors T-D1 to T-D12, X6 and others of the unimplemented words: the listed words decode as listed. -/
def Obligations.ListedWordsDecodeAsListed : Prop :=
  decode 0x0000#16 = .ok .halt ∧ decode 0x00EE#16 = .ok .ret ∧ decode 0x2100#16 = .ok (.call 0x100#12) ∧
  decode 0x8014#16 = .ok (.add 0 1) ∧ decode 0x2000#16 = .ok (.call 0x000#12) ∧
  decode 0x2FFF#16 = .ok (.call 0xFFF#12) ∧ decode 0x2004#16 = .ok (.call 0x004#12) ∧
  decode 0x20EE#16 = .ok (.call 0x0EE#12) ∧ decode 0x8FF4#16 = .ok (.add 15 15) ∧
  decode 0x8AB4#16 = .ok (.add 10 11) ∧ decode 0x8204#16 = .ok (.add 2 0) ∧ decode 0x8004#16 = .ok (.add 0 0) ∧
  decode 0x8015#16 = .error (.unimplemented 0x8015#16) ∧ decode 0x01EE#16 = .error (.unimplemented 0x01EE#16) ∧
  decode 0x0004#16 = .error (.unimplemented 0x0004#16)

/-! ## The instructions -/

/-- R56: HALT stops the run and changes nothing else; as a step it leaves `pc` at its address + 2, and no step follows. -/
def Obligations.HaltStopsTheRunAndChangesNothingElse : Prop :=
  encode .halt = 0x0000#16 ∧
  (∀ s : State, ∃ t, exec .halt s = .next t ∧ t.runState = .halted ∧ t.pc = s.pc ∧ t.sp = s.sp ∧
    SameRegisters s t ∧ SameBytes s t ∧ SameStackEntries s t ∧ t.faultCause = s.faultCause ∧
    t.faultWord = s.faultWord) ∧
  (∀ s : State, s.runState = .running → FetchLegal s → wordAtPc s = 0x0000#16 →
    ∃ t, step s = .next t ∧ t.runState = .halted ∧ t.pc = s.pc + 2#16 ∧ t.sp = s.sp ∧
      SameRegisters s t ∧ SameBytes s t ∧ SameStackEntries s t ∧ t.faultCause = s.faultCause ∧
      t.faultWord = s.faultWord ∧ ∀ u, step t ≠ .next u)

/-- R58: CALL pushes `pc`, which the fetch has advanced, at the old `sp`, raises `sp`, and jumps to the zero-extended
address, whatever the address; on a full stack it takes StackOverflow with its word and changes nothing else. -/
def Obligations.CallPushesTheReturnAddressAndJumps : Prop :=
  ∀ (addr : Addr) (s : State),
    (encode (.call addr)).toNat = 0x2000 + addr.toNat ∧
    (s.sp.val < 16 → ∃ t, exec (.call addr) s = .next t ∧
      (∀ i : Fin 16, stackEntry t i = if i.val = s.sp.val then s.pc else stackEntry s i) ∧
      t.sp.val = s.sp.val + 1 ∧ t.pc.toNat = addr.toNat ∧
      SameRegisters s t ∧ SameBytes s t ∧ SameRunControl s t) ∧
    (s.sp.val = 16 → ∃ t, exec (.call addr) s = .next t ∧
      FaultTaken .stackOverflow (0x2000#16 + addr.zeroExtend 16) s t ∧ causeCode t.faultCause = 2#3 ∧ t.pc = s.pc)

/-- R59: RETURN lowers `sp` and gives `pc` the entry at the new `sp`, which keeps its value; on an empty stack it takes
StackUnderflow with its word and changes nothing else. -/
def Obligations.ReturnPopsTheReturnAddressIntoPc : Prop :=
  encode .ret = 0x00EE#16 ∧
  ∀ s : State,
    (∀ k : Fin 16, s.sp.val = k.val + 1 → ∃ t, exec .ret s = .next t ∧
      t.sp.val = k.val ∧ t.pc = stackEntry s k ∧
      SameStackEntries s t ∧ SameRegisters s t ∧ SameBytes s t ∧ SameRunControl s t) ∧
    (s.sp.val = 0 → ∃ t, exec .ret s = .next t ∧
      FaultTaken .stackUnderflow 0x00EE#16 s t ∧ causeCode t.faultCause = 3#3 ∧ t.pc = s.pc)

/-- R60: a CALL at `c` with `sp = k < 16` whose target holds RETURN comes back in two steps to `c + 2` with `sp = k`,
`stack[k] = c + 2`, every other entry and every register unchanged. -/
def Obligations.CallThenReturnComesBack : Prop :=
  ∀ (s : State) (addr : Addr),
    s.runState = .running → FetchLegal s → wordAtPc s = encode (.call addr) → s.sp.val < 16 →
    addr.getLsbD 0 = false → addr.toNat ≤ 0x0FFE →
    readByte s addr.toNat = 0x00#8 → readByte s (addr.toNat + 1) = 0xEE#8 →
    ∃ t, Reaches 2 s t ∧ t.pc = s.pc + 2#16 ∧ t.sp = s.sp ∧
      (∀ i : Fin 16, stackEntry t i = if i.val = s.sp.val then s.pc + 2#16 else stackEntry s i) ∧
      SameRegisters s t ∧ SameBytes s t ∧ SameRunControl s t

/-- R62: ADD writes the low 8 bits of the exact sum to `V[x]` and then the carry to `V[15]`, both of the values before
the step; every other register, `pc`, stack, memory and run control are unchanged, and it cannot fault. -/
def Obligations.AddWritesTheSumAndThenTheCarry : Prop :=
  ∀ (x y : RegIndex) (s : State),
    (encode (.add x y)).toNat = 0x8004 + x.val * 256 + y.val * 16 ∧
    ∃ t, exec (.add x y) s = .next t ∧
      (x ≠ 15 → (readReg t x).toNat = ((readReg s x).toNat + (readReg s y).toNat) % 256) ∧
      readReg t 15 = (if 256 ≤ (readReg s x).toNat + (readReg s y).toNat then 0x01#8 else 0x00#8) ∧
      (∀ i, i ≠ x → i ≠ 15 → readReg t i = readReg s i) ∧
      t.pc = s.pc ∧ t.sp = s.sp ∧ SameBytes s t ∧ SameStackEntries s t ∧ SameRunControl s t

/-- R63's five cases: the operands coincide or name register 15. -/
def Obligations.AddWhenOperandsCoincideOrNameTheFlag : Prop :=
  ∀ (x y : RegIndex) (s : State), ∃ t, exec (.add x y) s = .next t ∧
    (x ≠ 15 → y ≠ 15 → x ≠ y →
      (readReg t x).toNat = ((readReg s x).toNat + (readReg s y).toNat) % 256 ∧ readReg t y = readReg s y ∧
      readReg t 15 = (if 256 ≤ (readReg s x).toNat + (readReg s y).toNat then 1#8 else 0#8)) ∧
    (x = y → x ≠ 15 →
      (readReg t x).toNat = 2 * (readReg s x).toNat % 256 ∧
      readReg t 15 = (if 128 ≤ (readReg s x).toNat then 1#8 else 0#8)) ∧
    (y = 15 → x ≠ 15 →
      (readReg t x).toNat = ((readReg s x).toNat + (readReg s 15).toNat) % 256 ∧
      readReg t 15 = (if 256 ≤ (readReg s x).toNat + (readReg s 15).toNat then 1#8 else 0#8)) ∧
    (x = 15 → y ≠ 15 →
      readReg t 15 = (if 256 ≤ (readReg s 15).toNat + (readReg s y).toNat then 1#8 else 0#8) ∧
      readReg t y = readReg s y) ∧
    (x = 15 → y = 15 → readReg t 15 = (if 128 ≤ (readReg s 15).toNat then 1#8 else 0#8))

/-- R64: `VF` after ADD is the exact sum shifted right by 8; the value does not depend on the order of the operands, the
register written does; and the old flag is not added in unless an operand names it. -/
def Obligations.AddFollowsTheArithmeticLaws : Prop :=
  ∀ (x y : RegIndex) (s : State), ∃ t, exec (.add x y) s = .next t ∧
    (readReg t 15).toNat = ((readReg s x).toNat + (readReg s y).toNat) >>> 8 ∧
    (∃ u, exec (.add y x) s = .next u ∧ readReg u 15 = readReg t 15 ∧
      (x ≠ 15 → y ≠ 15 → readReg u y = readReg t x)) ∧
    (x ≠ 15 → y ≠ 15 → ∀ b : Byte, ∃ u, exec (.add x y) (writeReg s 15 b) = .next u ∧ SameRegisters t u)

/-! ## The step -/

/-- A step of a RUNNING machine at a legal `pc` runs the instruction the two bytes there decode to, in the state with
`pc` moved past it (R48, R49, R51). -/
def Obligations.StepRunsTheDecodedInstruction : Prop :=
  ∀ (s : State) (i : Instr),
    s.runState = .running → FetchLegal s → i.wellFormed = true →
    decode (wordOfBytes (readByte s s.pc.toNat) (readByte s (s.pc.toNat + 1))) = .ok i →
    step s = exec i { s with pc := s.pc + 2#16 }

/-- R49: a legal fetch reads the bytes at `pc` and `pc + 1`, the first the high-order byte, and hands the word on with
`pc` advanced by exactly 2; a failing one changes nothing but the fault record, and writes no word. -/
def Obligations.FetchReadsTwoBytesAndAdvancesPc : Prop :=
  ∀ s : State, s.runState = .running →
    (FetchLegal s → ∃ w, fetchWord s = some w ∧
      w.toNat = (readByte s s.pc.toNat).toNat * 256 + (readByte s (s.pc.toNat + 1)).toNat ∧
      step s = dispatch w { s with pc := s.pc + 2#16 } ∧ (s.pc + 2#16).toNat = s.pc.toNat + 2) ∧
    (FetchFails s → fetchWord s = none ∧
      step s = .next { s with runState := .faulted, faultCause := some .fetchFault })

/-- R30: a step takes the fetch fault exactly when `pc` is odd or above 0x0FFE, and nothing but the fault record changes. -/
def Obligations.FetchFaultsExactlyAtOddOrOutOfRangePc : Prop :=
  ∀ s : State, s.runState = .running → s.faultCause = none → ∃ t, step s = .next t ∧
    (t.faultCause = some .fetchFault ↔ FetchFails s) ∧
    (FetchFails s → FaultTaken .fetchFault s.faultWord s t ∧ t.pc = s.pc)

/-- R13: `pc` after each event, with `a = s.pc` the value before the step. -/
def Obligations.PcAfterEachEvent : Prop :=
  ∀ s : State, s.runState = .running → ∃ t, step s = .next t ∧
    (FetchFails s → t.pc = s.pc) ∧
    (FetchLegal s →
      (decode (wordAtPc s) = .ok .halt → t.pc = s.pc + 2#16) ∧
      (∀ x y, decode (wordAtPc s) = .ok (.add x y) → t.pc = s.pc + 2#16) ∧
      (∀ addr, decode (wordAtPc s) = .ok (.call addr) → s.sp.val < 16 → t.pc = addr.zeroExtend 16) ∧
      (∀ addr, decode (wordAtPc s) = .ok (.call addr) → s.sp.val = 16 → t.pc = s.pc + 2#16) ∧
      (decode (wordAtPc s) = .ok .ret → ∀ k : Fin 16, s.sp.val = k.val + 1 → t.pc = stackEntry s k) ∧
      (decode (wordAtPc s) = .ok .ret → s.sp.val = 0 → t.pc = s.pc + 2#16) ∧
      (MatchesNoRow (wordAtPc s) → t.pc = s.pc + 2#16)) ∧
    (∀ ws : LoaderWrite, (loaderWrite s ws).pc = s.pc)

/-- R61: a word that is neither CALL nor RETURN leaves `pc` at the fetch's `pc + 2`, whatever else it is, and the
handlers of ADD and HALT do not touch `pc`. -/
def Obligations.OnlyCallAndReturnChangeTheFlow : Prop :=
  (∀ s : State, s.runState = .running → FetchLegal s →
    wordAtPc s &&& 0xF000#16 ≠ 0x2000#16 → wordAtPc s ≠ 0x00EE#16 →
    ∃ t, step s = .next t ∧ t.pc = s.pc + 2#16) ∧
  (∀ s : State, ∃ t, exec .halt s = .next t ∧ t.pc = s.pc) ∧
  (∀ (s : State) (x y : RegIndex), ∃ t, exec (.add x y) s = .next t ∧ t.pc = s.pc)

/-- R52: a word that matches no row takes UnimplementedOpcode with the word; `pc` is its address + 2 and nothing else
changes. -/
def Obligations.UnimplementedWordFaultsCarryingTheWord : Prop :=
  ∀ s : State, s.runState = .running → FetchLegal s → MatchesNoRow (wordAtPc s) →
    ∃ t, step s = .next t ∧ FaultTaken .unimplementedOpcode (wordAtPc s) s t ∧ causeCode t.faultCause = 1#3 ∧
      t.pc = s.pc + 2#16

/-- D15 and R58 (a): CALL does not check its target. A CALL to an odd address pushes and jumps, and the next step takes
the fetch fault there, with the pushed entry in place. -/
def Obligations.CallToAnOddAddressFaultsAtTheNextFetch : Prop :=
  ∀ (s : State) (addr : Addr),
    s.runState = .running → FetchLegal s → wordAtPc s = encode (.call addr) → s.sp.val < 16 →
    addr.getLsbD 0 = true →
    ∃ t u, step s = .next t ∧ t.runState = .running ∧ t.pc.toNat = addr.toNat ∧ t.sp.val = s.sp.val + 1 ∧
      (∀ i : Fin 16, i.val = s.sp.val → stackEntry t i = s.pc + 2#16) ∧
      step t = .next u ∧ FaultTaken .fetchFault s.faultWord t u ∧ u.pc = t.pc

/-- R71's table: for each of the four codes, the condition under which a step takes that fault, the word it records and
the `pc` it leaves; and HALT and ADD raise nothing. The premise is the invariant of a RUNNING machine's fault record. -/
def Obligations.EachFaultIsTakenUnderItsConditionOnly : Prop :=
  ∀ s : State, s.runState = .running → RecordConsistent s → ∃ t, step s = .next t ∧
    (causeCode t.faultCause = 1#3 ↔ FetchLegal s ∧ MatchesNoRow (wordAtPc s)) ∧
    (causeCode t.faultCause = 2#3 ↔ FetchLegal s ∧ wordAtPc s &&& 0xF000#16 = 0x2000#16 ∧ s.sp.val = 16) ∧
    (causeCode t.faultCause = 3#3 ↔ FetchLegal s ∧ wordAtPc s = 0x00EE#16 ∧ s.sp.val = 0) ∧
    (causeCode t.faultCause = 4#3 ↔ FetchFails s) ∧
    (t.runState = .faulted ↔ causeCode t.faultCause ≠ 0#3) ∧
    (t.runState = .faulted → FetchLegal s → t.faultWord = wordAtPc s ∧ t.pc = s.pc + 2#16) ∧
    (t.runState = .faulted → FetchFails s → t.faultWord = 0x0000#16 ∧ t.pc = s.pc) ∧
    (∀ i u, i = .halt ∨ (∃ x y, i = .add x y) → exec i s = .next u → u.faultCause = s.faultCause)

/-- R74: whatever the fault, the step that takes it writes `run_state`, `fault_cause` and, when a word was fetched,
`fault_word`, on top of the fetch's advance of `pc`, and nothing else; no state follows it, and it is no normal end. -/
def Obligations.AFaultWritesTheRecordAndNothingElse : Prop :=
  ∀ s t : State, step s = .next t → t.runState = .faulted →
    (∃ k, t.faultCause = some k ∧
      (FetchLegal s → k ≠ .fetchFault ∧
        t = { s with pc := s.pc + 2#16, runState := .faulted, faultCause := some k, faultWord := wordAtPc s }) ∧
      (FetchFails s → k = .fetchFault ∧ t = { s with runState := .faulted, faultCause := some k })) ∧
    (∀ u, step t ≠ .next u) ∧ ¬ NormalEnd t

/-- R17: `run_state` has three encodings; a step is taken only in RUNNING, enters HALTED exactly at HALT and FAULTED
exactly at one of the four fault conditions; no instruction reads it; a HALTED or FAULTED state has no next state, and
reset gives RUNNING. -/
def Obligations.RunStateChangesOnlyAtHaltOrFault : Prop :=
  (RunState.running.code = 0b00#2 ∧ RunState.halted.code = 0b01#2 ∧ RunState.faulted.code = 0b10#2) ∧
  (∀ s t : State, step s = .next t →
    s.runState = .running ∧
    (t.runState = .halted ↔ FetchLegal s ∧ wordAtPc s = 0x0000#16) ∧
    (t.runState = .faulted ↔ FetchFails s ∨ MatchesNoRow (wordAtPc s) ∨
      (wordAtPc s &&& 0xF000#16 = 0x2000#16 ∧ s.sp.val = 16) ∨ (wordAtPc s = 0x00EE#16 ∧ s.sp.val = 0))) ∧
  (∀ (i : Instr) (s t : State) (r : RunState), exec i s = .next t → ∃ u, exec i { s with runState := r } = .next u ∧
    { u with runState := t.runState } = t) ∧
  (∀ s : State, (applyReset s).runState = .running)

/-- R54, with the model's choice that a step that is not defined answers the outcome fault, under a name that says which
end it was (log entry 1). Reset gives a machine that steps again (R83). -/
def Obligations.NoStepIsDefinedAfterTheRunEnded : Prop :=
  ∀ s : State,
    (s.runState = .halted → step s = .fault .halted) ∧
    (s.runState = .faulted → step s = .fault (.faulted s.faultCause s.faultWord)) ∧
    ∃ t, step (applyReset s) = .next t

/-- 93_implementation_defined.md part 1: every RUNNING state has a next state, and only a RUNNING state has one (R48,
R54); no step is refused. -/
def Obligations.AStepIsDefinedExactlyWhenRunning : Prop :=
  ∀ s : State, ((∃ t, step s = .next t) ↔ s.runState = .running) ∧ ∀ r, step s ≠ .refused r

/-! ## Who writes what -/

/-- R16: a CALL with `sp < 16` raises `sp` by 1 and a RETURN with `sp > 0` lowers it by 1; a CALL with `sp = 16` and a
RETURN with `sp = 0` fault instead and leave it; nothing else writes it, the loader neither. That `sp` is one of 0 to 16 is
its type, as D13 has it (log entry 5). -/
def Obligations.OnlyCallAndReturnMoveTheStackPointer : Prop :=
  (∀ s : State, s.runState = .running → FetchLegal s → wordAtPc s &&& 0xF000#16 = 0x2000#16 →
    ∃ t, step s = .next t ∧
      (s.sp.val < 16 → t.runState = .running ∧ t.sp.val = s.sp.val + 1) ∧
      (s.sp.val = 16 → t.faultCause = some .stackOverflow ∧ t.sp = s.sp)) ∧
  (∀ s : State, s.runState = .running → FetchLegal s → wordAtPc s = 0x00EE#16 →
    ∃ t, step s = .next t ∧
      (0 < s.sp.val → t.runState = .running ∧ t.sp.val + 1 = s.sp.val) ∧
      (s.sp.val = 0 → t.faultCause = some .stackUnderflow ∧ t.sp = s.sp)) ∧
  (∀ s t : State, step s = .next t → t.sp ≠ s.sp →
    FetchLegal s ∧ (wordAtPc s &&& 0xF000#16 = 0x2000#16 ∧ s.sp.val < 16 ∨ wordAtPc s = 0x00EE#16 ∧ 0 < s.sp.val)) ∧
  (∀ s : State, s.sp.val ≤ 16) ∧
  (∀ (s : State) (ws : LoaderWrite), (loaderWrite s ws).sp = s.sp)

/-- R15: an entry of the call stack changes only in a CALL that does not fault, and only the entry at the old `sp`,
which gets `pc + 2`; a RETURN leaves the entry it read. -/
def Obligations.OnlyCallWritesAStackEntry : Prop :=
  ∀ (s t : State) (i : Fin 16), step s = .next t → stackEntry t i ≠ stackEntry s i →
    FetchLegal s ∧ wordAtPc s &&& 0xF000#16 = 0x2000#16 ∧ s.sp.val < 16 ∧ i.val = s.sp.val ∧
    stackEntry t i = s.pc + 2#16

/-- R10: a register changes only in an ADD, and only its destination or `V[15]`. -/
def Obligations.OnlyAddWritesARegister : Prop :=
  ∀ (s t : State) (i : RegIndex), step s = .next t → readReg t i ≠ readReg s i →
    FetchLegal s ∧ ∃ x y, decode (wordAtPc s) = .ok (.add x y) ∧ (i = x ∨ i = 15)

/-- R10 and R11: nothing but the registers depends on the registers. Two machines that differ only in `V` take the same
step in `pc`, memory, stack, `sp`, run state and fault record; in particular no instruction tests the flag. -/
def Obligations.NothingElseDependsOnTheRegisters : Prop :=
  ∀ (s t : State) (V : Vector Byte 16), step s = .next t →
    ∃ u, step { s with V := V } = .next u ∧ { u with V := t.V } = t

/-- R11 and R23 item 5: from any ADD on, `VF` holds 0 or 1 in every later state. -/
def Obligations.FlagIsZeroOrOneFromAnyAddOn : Prop :=
  ∀ (x y : RegIndex) (s : State), ∃ t, exec (.add x y) s = .next t ∧ FlagIsBit t ∧
    ∀ (n : Nat) (u : State), Reaches n t u → FlagIsBit u

/-- R34: the word fetched at an address is always the launch memory's two bytes there, in every state of a run, and no
step changes memory. -/
def Obligations.EveryFetchReadsTheLaunchMemory : Prop :=
  ∀ (ws : List LoaderWrite) (n : Nat) (t : State), Reaches n (launch ws) t →
    SameBytes (launch ws) t ∧ t.mem = (launch ws).mem ∧
    ∀ w, fetchWord t = some w →
      w = readByte (launch ws) t.pc.toNat ++ readByte (launch ws) (t.pc.toNat + 1)

/-! ## Invariants -/

/-- R23: a step keeps `pc` at most 0x1000, every stack entry even and at most 0x1000, the fault record consistent with
`run_state`, and memory canonical. -/
def Obligations.EveryStepKeepsTheReachableStateInvariant : Prop :=
  ∀ s t : State, Inv s → step s = .next t → Inv t

/-- Every launch state meets the invariant. -/
def Obligations.EveryLaunchStateMeetsTheInvariant : Prop :=
  ∀ ws : List LoaderWrite, Inv (launch ws)

/-- The reset state meets the invariant. -/
def Obligations.ResetStateMeetsTheInvariant : Prop := Inv State.reset

/-- R23 item 2: an odd `pc` comes only from a CALL to an odd address; the other step that leaves one is the fetch fault
there, which leaves it as it is. -/
def Obligations.OddPcComesOnlyFromACallToAnOddAddress : Prop :=
  ∀ s t : State, StackEntriesLegal s → step s = .next t → t.pc.getLsbD 0 = true →
    (s.pc.getLsbD 0 = true ∧ t.pc = s.pc ∧ t.faultCause = some .fetchFault) ∨
    (∃ addr : Addr, wordAtPc s = encode (.call addr) ∧ addr.getLsbD 0 = true ∧ t.pc = addr.zeroExtend 16)

/-- R18: in a state of a run that is RUNNING or HALTED the fault record is zero, and in one that is FAULTED its code is
1 to 4. -/
def Obligations.FaultRecordIsZeroUntilAFault : Prop :=
  ∀ (ws : List LoaderWrite) (n : Nat) (t : State), Reaches n (launch ws) t →
    (t.runState ≠ .faulted → (statusPorts t).faultCause = 0#3 ∧ (statusPorts t).faultWord = 0x0000#16) ∧
    (t.runState = .faulted → 1 ≤ (statusPorts t).faultCause.toNat ∧ (statusPorts t).faultCause.toNat ≤ 4)

/-- The canonical form of memory (log entry 4): two canonical memories with the same 4096 bytes are the same data. -/
def Obligations.CanonicalMemoriesWithEqualBytesAreEqual : Prop :=
  ∀ m m' : Memory, m.wf = true → m'.wf = true → (∀ a : Addr, m.byteAt a.toNat = m'.byteAt a.toNat) → m = m'

/-- R70: a push is delivered exactly when `sp < 16`, a pop exactly when `sp > 0`, and a pop after a push delivers what
was pushed, with `sp` back where it was. -/
def Obligations.PopAfterPushDeliversTheValue : Prop :=
  ∀ (s : State) (v : Word),
    ((∃ t, push s v = some t) ↔ s.sp.val < 16) ∧ ((∃ p, pop s = some p) ↔ 0 < s.sp.val) ∧
    ∀ t, push s v = some t →
      (∀ i : Fin 16, stackEntry t i = if i.val = s.sp.val then v else stackEntry s i) ∧ t.sp.val = s.sp.val + 1 ∧
      ∃ u, pop t = some (v, u) ∧ u = { t with sp := s.sp }

/-! ## The whole machine -/

/-- R53: the step of a RUNNING machine is the spec's one block, written out over the state's fields as numbers. -/
def Obligations.StepIsTheSpecsWholeBlock : Prop :=
  ∀ s : State, s.runState = .running → step s = .next (wholeStep s)

/-- R2 and R68 to R70: the step of a RUNNING machine is what its sub-blocks make of it through their signals, whatever
word `top` carries while it is not valid. That data signals are driven whatever the instruction (`pc_target` with `top`
where R68 gives it no value), that dispatch_alu has `w` from the fields, and that it drives nothing in a
step that fetches no word, is the model's choice (log entry 14). -/
def Obligations.SubBlocksMakeTheSameStep : Prop :=
  ∀ (s : State) (invalid : Word), s.runState = .running → step s = .next (blockStep invalid s)

/-- R55, marked there as the spec's own derivation: every run is finite. From every RUNNING state the machine reaches one
that is not RUNNING; from a launch state that end is a normal one or a recorded fault. -/
def Obligations.EveryRunIsFinite : Prop :=
  (∀ s : State, s.runState = .running → ∃ n t, Reaches n s t ∧ t.runState ≠ .running) ∧
  (∀ ws : List LoaderWrite, ∃ n t, Reaches n (launch ws) t ∧
    (NormalEnd t ∨ (t.runState = .faulted ∧ t.faultCause ≠ none)))
end

