-- ==== Sys2Proof/Laws/Decode.lean ====
section
/-! SUPPORT. Lemmas about words, fields and operand checks. -/

namespace Sys2Proof.Laws

/-- Every instruction passes the operand checks, because its operand types carry them. -/
theorem wellFormed_every (i : Instr) : i.wellFormed = true := by
  cases i with
  | halt => rfl
  | ret => rfl
  | call addr =>
    have := addr.isLt
    simp only [Instr.wellFormed, callOperandOk, decide_eq_true_eq]
    omega
  | add x y =>
    simp only [Instr.wellFormed, addOperandsOk, Bool.and_eq_true, decide_eq_true_eq]
    omega

/-- The fields of a word form a well-formed tuple (R40). -/
theorem splitFields_wellFormed (w : Word) : (splitFields w).wellFormed = true := by
  refine decide_eq_true ?_
  simp only [splitFields]
  rw [BitVec.extractLsb'_append_extractLsb'_eq_extractLsb' (by rfl),
    BitVec.extractLsb'_append_extractLsb'_eq_extractLsb' (by rfl)]

/-- A word is its four nibbles, most significant first (R40). -/
theorem joinFields_splitFields (w : Word) : joinFields (splitFields w) = w := by
  simp only [joinFields, splitFields]
  rw [BitVec.extractLsb'_append_extractLsb'_eq_extractLsb' (by rfl),
    BitVec.extractLsb'_append_extractLsb'_eq_extractLsb' (by rfl),
    BitVec.extractLsb'_append_extractLsb'_eq_extractLsb' (by rfl)]
  simp

@[simp] theorem regOfNibble_nibbleOfReg (i : RegIndex) : regOfNibble (nibbleOfReg i) = i := rfl
@[simp] theorem nibbleOfReg_regOfNibble (n : Nibble) : nibbleOfReg (regOfNibble n) = n := rfl

/-- The two bytes of a word give the word back, high byte first (R39). -/
theorem wordOfBytes_bytes (w : Word) : wordOfBytes (highByte w) (lowByte w) = w := by
  simp only [wordOfBytes, highByte, lowByte]
  rw [BitVec.extractLsb'_append_extractLsb'_eq_extractLsb' (by rfl)]
  simp

/-- The decoder rejects a word by its own name, with the word. -/
theorem decode_error (w : Word) (e : DecodeReject) (h : decode w = .error e) : e = .unimplemented w := by
  simp only [decode] at h
  split at h
  · cases h
  · cases h; rfl

/-! ## Words as numbers -/

/-- Concatenation as a number: the first part is the more significant (R7). -/
theorem append_toNat {n m : Nat} (a : BitVec n) (b : BitVec m) : (a ++ b).toNat = a.toNat * 2 ^ m + b.toNat := by
  rw [BitVec.toNat_append, ← Nat.shiftLeft_add_eq_or_of_lt b.isLt, Nat.shiftLeft_eq]

/-- A field as a number: shift right, then keep its width (R7). -/
theorem field_toNat {n : Nat} (v : BitVec n) (lo len : Nat) :
    (v.extractLsb' lo len).toNat = v.toNat / 2 ^ lo % 2 ^ len := by
  rw [BitVec.extractLsb'_toNat, Nat.shiftRight_eq_div_pow]

theorem wordOfBytes_toNat (hi lo : Byte) : (wordOfBytes hi lo).toNat = hi.toNat * 256 + lo.toNat :=
  append_toNat hi lo

theorem splitFields_cls_toNat (w : Word) : (splitFields w).cls.toNat = w.toNat / 4096 := by
  have := w.isLt
  simp only [splitFields, field_toNat]
  omega

theorem splitFields_x_toNat (w : Word) : (splitFields w).x.toNat = w.toNat / 256 % 16 := field_toNat w 8 4

theorem splitFields_y_toNat (w : Word) : (splitFields w).y.toNat = w.toNat / 16 % 16 := field_toNat w 4 4

theorem splitFields_d_toNat (w : Word) : (splitFields w).d.toNat = w.toNat % 16 := by
  simp only [splitFields, field_toNat]
  omega

theorem splitFields_addr_toNat (w : Word) : (splitFields w).addr.toNat = w.toNat % 4096 := by
  simp only [splitFields, field_toNat]
  omega

theorem encode_call_toNat (addr : Addr) : (encode (.call addr)).toNat = 0x2000 + addr.toNat := by
  rw [encode, append_toNat]
  rfl

theorem encode_add_toNat (x y : RegIndex) : (encode (.add x y)).toNat = 0x8004 + x.val * 256 + y.val * 16 := by
  simp only [encode, append_toNat, nibbleOfReg, BitVec.toNat_ofFin]
  simp only [BitVec.toNat_ofNat]
  omega

/-- The classification in numbers: the class is `w / 4096`, the sub-selector `w % 16` (R50, R51). -/
theorem decode_eq (w : Word) : decode w =
    if w.toNat = 0 then .ok .halt
    else if w.toNat = 0xEE then .ok .ret
    else if w.toNat / 4096 = 2 then .ok (.call (w.extractLsb' 0 12))
    else if w.toNat / 4096 = 8 ∧ w.toNat % 16 = 4 then
      .ok (.add (w.extractLsb' 8 4).toFin (w.extractLsb' 4 4).toFin)
    else .error (.unimplemented w) := by
  have h1 := splitFields_cls_toNat w
  have h2 := splitFields_x_toNat w
  have h3 := splitFields_y_toNat w
  have h4 := splitFields_d_toNat w
  have lt := w.isLt
  simp only [decode, classify, ← BitVec.toNat_inj, h1, h2, h3, h4, BitVec.toNat_ofNat, Nat.reducePow, Nat.reduceMod]
  by_cases c1 : w.toNat = 0
  · rw [if_pos c1, if_pos (by omega)]
  rw [if_neg c1, if_neg (by omega)]
  by_cases c2 : w.toNat = 0xEE
  · rw [if_pos c2, if_pos (by omega)]
  rw [if_neg c2, if_neg (by omega)]
  by_cases c3 : w.toNat / 4096 = 2
  · rw [if_pos c3, if_pos c3]
    rfl
  rw [if_neg c3, if_neg c3]
  by_cases c4 : w.toNat / 4096 = 8 ∧ w.toNat % 16 = 4
  · rw [if_pos c4, if_pos c4]
    rfl
  · rw [if_neg c4, if_neg c4]

end Sys2Proof.Laws
end

