-- ==== Sys2Proof/Laws/Memory.lean ====
section
/-! SUPPORT. The laws of the byte memory: read after write, the canonical form, and that canonical memories with equal bytes are equal. -/

namespace Sys2Proof.Machine

/-- What the canonical form says of a memory with a first entry. -/
theorem wfFrom_cons (lo k : Nat) (c : Byte) (m : Memory) :
    Memory.wfFrom lo ((k, c) :: m) = true ↔
      lo ≤ k ∧ k < 4096 ∧ c ≠ unlistedByte ∧ Memory.wfFrom (k + 1) m = true := by
  simp [Memory.wfFrom, and_assoc]

theorem wfFrom_mono {lo lo' : Nat} (m : Memory) (h : Memory.wfFrom lo m = true) (hle : lo' ≤ lo) :
    Memory.wfFrom lo' m = true := by
  cases m with
  | nil => rfl
  | cons e m =>
    obtain ⟨k, c⟩ := e
    rw [wfFrom_cons] at h ⊢
    exact ⟨by omega, h.2⟩

/-- Below its first entry a memory reads as `unlistedByte`. -/
theorem byteAt_below {lo a : Nat} (m : Memory) (h : Memory.wfFrom lo m = true) (ha : a < lo) :
    m.byteAt a = unlistedByte := by
  induction m generalizing lo with
  | nil => rfl
  | cons e m ih =>
    obtain ⟨k, c⟩ := e
    obtain ⟨hk, -, -, hm⟩ := (wfFrom_cons ..).1 h
    rw [Memory.byteAt, if_neg (by omega)]
    exact ih hm (by omega)

/-- Read after write, from any start of the canonical form. -/
theorem byteAt_put_from {lo : Nat} (m : Memory) (h : Memory.wfFrom lo m = true) (a b : Nat) (c : Byte) :
    (m.put a c).byteAt b = if a = b then c else m.byteAt b := by
  induction m generalizing lo with
  | nil => by_cases hc : c = unlistedByte <;> simp [Memory.put, Memory.byteAt, hc]
  | cons e m ih =>
    obtain ⟨k, v⟩ := e
    obtain ⟨-, -, -, hm⟩ := (wfFrom_cons ..).1 h
    have hself : Memory.wfFrom k ((k, v) :: m) = true := by
      rw [wfFrom_cons] at h ⊢; exact ⟨Nat.le_refl k, h.2⟩
    rw [Memory.put]
    rcases Nat.lt_trichotomy a k with hak | rfl | hak
    · rw [if_pos hak]
      by_cases hc : c = unlistedByte
      · rw [if_pos hc]
        by_cases hab : a = b
        · rw [if_pos hab, hc, byteAt_below _ hself (by omega)]
        · rw [if_neg hab]
      · rw [if_neg hc, Memory.byteAt]
    · rw [if_neg (Nat.lt_irrefl a), if_pos rfl]
      by_cases hc : c = unlistedByte
      · rw [if_pos hc]
        by_cases hab : a = b
        · rw [if_pos hab, hc, byteAt_below _ hm (by omega)]
        · rw [if_neg hab, Memory.byteAt, if_neg hab]
      · rw [if_neg hc, Memory.byteAt]
        by_cases hab : a = b
        · rw [if_pos hab, if_pos hab]
        · rw [if_neg hab, if_neg hab, Memory.byteAt, if_neg hab]
    · rw [if_neg (by omega), if_neg (by omega), Memory.byteAt, Memory.byteAt, ih hm]
      by_cases hkb : k = b
      · rw [if_pos hkb, if_pos hkb, if_neg (by omega)]
      · rw [if_neg hkb, if_neg hkb]

/-- Read after write: the byte written at its address, every other byte as before. -/
theorem byteAt_put (m : Memory) (h : m.wf = true) (a b : Nat) (c : Byte) :
    (m.put a c).byteAt b = if a = b then c else m.byteAt b :=
  byteAt_put_from m h a b c

/-- A write keeps the canonical form, from any start at or below the address. -/
theorem put_wfFrom {lo : Nat} (m : Memory) (h : Memory.wfFrom lo m = true) (a : Nat) (c : Byte) (hlo : lo ≤ a)
    (ha : a < 4096) : Memory.wfFrom lo (m.put a c) = true := by
  induction m generalizing lo with
  | nil =>
    rw [Memory.put]
    split
    · rfl
    · next hc => rw [wfFrom_cons]; exact ⟨hlo, ha, hc, rfl⟩
  | cons e m ih =>
    obtain ⟨k, v⟩ := e
    obtain ⟨hk, hk', hv, hm⟩ := (wfFrom_cons ..).1 h
    rw [Memory.put]
    rcases Nat.lt_trichotomy a k with hak | rfl | hak
    · rw [if_pos hak]
      split
      · exact h
      · next hc =>
        rw [wfFrom_cons, wfFrom_cons]
        exact ⟨hlo, ha, hc, hak, hk', hv, hm⟩
    · rw [if_neg (Nat.lt_irrefl a), if_pos rfl]
      split
      · exact wfFrom_mono m hm (by omega)
      · next hc => rw [wfFrom_cons]; exact ⟨hlo, ha, hc, hm⟩
    · rw [if_neg (by omega), if_neg (by omega), wfFrom_cons]
      exact ⟨hk, hk', hv, ih hm (by omega)⟩

/-- Every write inside the address space keeps the canonical form. -/
theorem put_wf (m : Memory) (h : m.wf = true) (a : Nat) (c : Byte) (ha : a < 4096) : (m.put a c).wf = true :=
  put_wfFrom m h a c (Nat.zero_le a) ha

/-- The loader's write port keeps the canonical form. -/
theorem writeByte_wf (s : State) (h : s.mem.wf = true) (a : Addr) (b : Byte) : (writeByte s a b).mem.wf = true :=
  put_wf s.mem h a.toNat b a.isLt

theorem reset_mem_wf : State.reset.mem.wf = true := rfl

theorem byteAt_nil (a : Nat) : Memory.byteAt [] a = 0x00#8 := rfl

/-- `MemRead(a, 2)` inside its domain (R27). -/
theorem memRead2_eq_some (m : Memory) (a : Word) (h : a.toNat + 1 < 4096) :
    memRead2 m a = some (m.byteAt a.toNat ++ m.byteAt (a.toNat + 1)) := by
  simp [memRead2, wordOfBytes, h]

end Sys2Proof.Machine
end

