-- ==== Sys2Proof/Laws/State.lean ====
section
/-! SUPPORT. One lemma per field per update of State, so that no later proof unfolds a record update. -/

namespace Sys2Proof.Machine

/-! ## writeReg -/

@[simp] theorem writeReg_V (s : State) (i : RegIndex) (b : Byte) : (writeReg s i b).V = s.V.set i.val b := rfl
@[simp] theorem writeReg_pc (s : State) (i : RegIndex) (b : Byte) : (writeReg s i b).pc = s.pc := rfl
@[simp] theorem writeReg_mem (s : State) (i : RegIndex) (b : Byte) : (writeReg s i b).mem = s.mem := rfl
@[simp] theorem writeReg_stack (s : State) (i : RegIndex) (b : Byte) : (writeReg s i b).stack = s.stack := rfl
@[simp] theorem writeReg_sp (s : State) (i : RegIndex) (b : Byte) : (writeReg s i b).sp = s.sp := rfl
@[simp] theorem writeReg_runState (s : State) (i : RegIndex) (b : Byte) : (writeReg s i b).runState = s.runState := rfl
@[simp] theorem writeReg_faultCause (s : State) (i : RegIndex) (b : Byte) : (writeReg s i b).faultCause = s.faultCause := rfl
@[simp] theorem writeReg_faultWord (s : State) (i : RegIndex) (b : Byte) : (writeReg s i b).faultWord = s.faultWord := rfl

/-! ## writeByte -/

@[simp] theorem writeByte_V (s : State) (a : Addr) (b : Byte) : (writeByte s a b).V = s.V := rfl
@[simp] theorem writeByte_pc (s : State) (a : Addr) (b : Byte) : (writeByte s a b).pc = s.pc := rfl
@[simp] theorem writeByte_mem (s : State) (a : Addr) (b : Byte) : (writeByte s a b).mem = s.mem.put a.toNat b := rfl
@[simp] theorem writeByte_stack (s : State) (a : Addr) (b : Byte) : (writeByte s a b).stack = s.stack := rfl
@[simp] theorem writeByte_sp (s : State) (a : Addr) (b : Byte) : (writeByte s a b).sp = s.sp := rfl
@[simp] theorem writeByte_runState (s : State) (a : Addr) (b : Byte) : (writeByte s a b).runState = s.runState := rfl
@[simp] theorem writeByte_faultCause (s : State) (a : Addr) (b : Byte) : (writeByte s a b).faultCause = s.faultCause := rfl
@[simp] theorem writeByte_faultWord (s : State) (a : Addr) (b : Byte) : (writeByte s a b).faultWord = s.faultWord := rfl

/-! ## setPc -/

@[simp] theorem setPc_V (s : State) (w : Word) : (setPc s w).V = s.V := rfl
@[simp] theorem setPc_pc (s : State) (w : Word) : (setPc s w).pc = w := rfl
@[simp] theorem setPc_mem (s : State) (w : Word) : (setPc s w).mem = s.mem := rfl
@[simp] theorem setPc_stack (s : State) (w : Word) : (setPc s w).stack = s.stack := rfl
@[simp] theorem setPc_sp (s : State) (w : Word) : (setPc s w).sp = s.sp := rfl
@[simp] theorem setPc_runState (s : State) (w : Word) : (setPc s w).runState = s.runState := rfl
@[simp] theorem setPc_faultCause (s : State) (w : Word) : (setPc s w).faultCause = s.faultCause := rfl
@[simp] theorem setPc_faultWord (s : State) (w : Word) : (setPc s w).faultWord = s.faultWord := rfl

/-! ## advancePc -/

@[simp] theorem advancePc_V (s : State) : (advancePc s).V = s.V := rfl
@[simp] theorem advancePc_pc (s : State) : (advancePc s).pc = s.pc + Config.pcStep := rfl
@[simp] theorem advancePc_mem (s : State) : (advancePc s).mem = s.mem := rfl
@[simp] theorem advancePc_stack (s : State) : (advancePc s).stack = s.stack := rfl
@[simp] theorem advancePc_sp (s : State) : (advancePc s).sp = s.sp := rfl
@[simp] theorem advancePc_runState (s : State) : (advancePc s).runState = s.runState := rfl
@[simp] theorem advancePc_faultCause (s : State) : (advancePc s).faultCause = s.faultCause := rfl
@[simp] theorem advancePc_faultWord (s : State) : (advancePc s).faultWord = s.faultWord := rfl

/-! ## raiseFault -/

@[simp] theorem raiseFault_V (s : State) (k : FaultKind) (info : Option Word) : (raiseFault k info s).V = s.V := rfl
@[simp] theorem raiseFault_pc (s : State) (k : FaultKind) (info : Option Word) : (raiseFault k info s).pc = s.pc := rfl
@[simp] theorem raiseFault_mem (s : State) (k : FaultKind) (info : Option Word) : (raiseFault k info s).mem = s.mem := rfl
@[simp] theorem raiseFault_stack (s : State) (k : FaultKind) (info : Option Word) : (raiseFault k info s).stack = s.stack := rfl
@[simp] theorem raiseFault_sp (s : State) (k : FaultKind) (info : Option Word) : (raiseFault k info s).sp = s.sp := rfl
@[simp] theorem raiseFault_runState (s : State) (k : FaultKind) (info : Option Word) : (raiseFault k info s).runState = .faulted := rfl
@[simp] theorem raiseFault_faultCause (s : State) (k : FaultKind) (info : Option Word) : (raiseFault k info s).faultCause = some k := rfl
@[simp] theorem raiseFault_faultWord (s : State) (k : FaultKind) (info : Option Word) : (raiseFault k info s).faultWord = info.getD s.faultWord := rfl

/-! ## haltRun -/

@[simp] theorem haltRun_V (s : State) : (haltRun s).V = s.V := rfl
@[simp] theorem haltRun_pc (s : State) : (haltRun s).pc = s.pc := rfl
@[simp] theorem haltRun_mem (s : State) : (haltRun s).mem = s.mem := rfl
@[simp] theorem haltRun_stack (s : State) : (haltRun s).stack = s.stack := rfl
@[simp] theorem haltRun_sp (s : State) : (haltRun s).sp = s.sp := rfl
@[simp] theorem haltRun_runState (s : State) : (haltRun s).runState = .halted := rfl
@[simp] theorem haltRun_faultCause (s : State) : (haltRun s).faultCause = s.faultCause := rfl
@[simp] theorem haltRun_faultWord (s : State) : (haltRun s).faultWord = s.faultWord := rfl

/-! ## reset -/

@[simp] theorem reset_V : State.reset.V = Vector.replicate 16 0x00#8 := rfl
@[simp] theorem reset_pc : State.reset.pc = 0x0000#16 := rfl
@[simp] theorem reset_mem : State.reset.mem = [] := rfl
@[simp] theorem reset_stack : State.reset.stack = Vector.replicate 16 0x0000#16 := rfl
@[simp] theorem reset_sp : State.reset.sp = 0 := rfl
@[simp] theorem reset_runState : State.reset.runState = .running := rfl
@[simp] theorem reset_faultCause : State.reset.faultCause = none := rfl
@[simp] theorem reset_faultWord : State.reset.faultWord = 0x0000#16 := rfl

/-- Two states with the same eight fields are one state. -/
theorem state_ext {s t : State} (hV : s.V = t.V) (hpc : s.pc = t.pc) (hmem : s.mem = t.mem) (hstack : s.stack = t.stack)
    (hsp : s.sp = t.sp) (hrun : s.runState = t.runState) (hcause : s.faultCause = t.faultCause)
    (hword : s.faultWord = t.faultWord) : s = t := by
  cases s; cases t; simp_all

end Sys2Proof.Machine
end

