-- ==== Sys2Proof/Laws/Fetch.lean ====
section
/-! SUPPORT. What the fetch can do. -/

namespace Sys2Proof.Machine

/-- The fetch test in numbers (R30). -/
theorem fetchOk_iff (pc : Word) : fetchOk pc = true ↔ pc.getLsbD 0 = false ∧ pc.toNat ≤ 0x0FFE := by
  simp [fetchOk, BitVec.le_def]

/-- Bit 0 as a remainder. -/
theorem getLsbD_zero_iff (v : Word) : v.getLsbD 0 = false ↔ v.toNat % 2 = 0 := by
  simp [BitVec.getLsbD, Nat.testBit_zero]

theorem fetchOk_iff_mod (pc : Word) : fetchOk pc = true ↔ pc.toNat % 2 = 0 ∧ pc.toNat ≤ 0x0FFE := by
  rw [fetchOk_iff, getLsbD_zero_iff]

/-- A legal fetch reads the two bytes at `pc`, the first the more significant (R28, R49). -/
theorem fetchWord_of_ok (s : State) (h : fetchOk s.pc = true) :
    fetchWord s = some (s.mem.byteAt s.pc.toNat ++ s.mem.byteAt (s.pc.toNat + 1)) := by
  rw [fetchWord, if_pos h]
  exact memRead2_eq_some s.mem s.pc (by have := (fetchOk_iff_mod s.pc).1 h; omega)

/-- A fetch that is not legal reads nothing (R49, D6). -/
theorem fetchWord_of_not_ok (s : State) (h : fetchOk s.pc = false) : fetchWord s = none := by
  simp [fetchWord, h]

/-- `pc + 2` is exact after a legal fetch: no wrap (R12, R64). -/
theorem advancePc_toNat (s : State) (h : fetchOk s.pc = true) : (advancePc s).pc.toNat = s.pc.toNat + 2 := by
  have := (fetchOk_iff_mod s.pc).1 h
  simp only [advancePc_pc, BitVec.toNat_add, BitVec.toNat_ofNat]
  omega

/-! ## A word placed for the next fetch -/

/-- `readyToFetch` gives a RUNNING machine at a legal fetch address. -/
theorem readyToFetch_ready (s : State) :
    (readyToFetch s).runState = .running ∧ fetchOk (readyToFetch s).pc = true := by
  by_cases h : s.runState = .running ∧ fetchOk s.pc = true
  · rw [readyToFetch, if_pos h]
    exact h
  · rw [readyToFetch, if_neg h]
    refine ⟨rfl, ?_⟩
    cases hf : fetchOk s.pc with
    | true => simp [hf]
    | false => simp; decide

theorem readyToFetch_mem (s : State) : (readyToFetch s).mem = s.mem := by
  rw [readyToFetch]
  split <;> rfl

/-- The next fetch reads exactly the word that was placed. -/
theorem fetchWord_placeFetchWord (s : State) (w : Word) (h : s.mem.wf = true) :
    (placeFetchWord s w).runState = .running ∧ fetchWord (placeFetchWord s w) = some w := by
  obtain ⟨hrun, hok⟩ := readyToFetch_ready s
  have hbound := (fetchOk_iff_mod _).1 hok
  have hwf : (readyToFetch s).mem.wf = true := by rw [readyToFetch_mem]; exact h
  have hwf' := put_wf _ hwf (readyToFetch s).pc.toNat (highByte w) (by omega)
  refine ⟨hrun, ?_⟩
  rw [fetchWord_of_ok (placeFetchWord s w) hok]
  change some (Memory.byteAt (Memory.put (Memory.put _ _ _) _ _) (readyToFetch s).pc.toNat ++
    Memory.byteAt (Memory.put (Memory.put _ _ _) _ _) ((readyToFetch s).pc.toNat + 1)) = _
  rw [byteAt_put _ hwf', byteAt_put _ hwf', if_neg (by omega), if_pos rfl, byteAt_put _ hwf, if_pos rfl]
  exact congrArg some (Laws.wordOfBytes_bytes w)

end Sys2Proof.Machine
end

