-- ==== Sys2Proof/Laws/Blocks.lean ====
section
/-! SUPPORT. What the sub-blocks send each other: the small lemmas of Machine/Blocks.lean. -/

namespace Sys2Proof.Machine

/-- `fetch_fault` is `not fetch_ok(pc)` (R68). -/
@[simp] theorem blockFetchUnit_fetchFault (pc : Word) : (blockFetchUnit pc).fetchFault = !fetchOk pc := rfl

@[simp] theorem blockFetchUnit_pcNext (pc : Word) : (blockFetchUnit pc).pcNext = pc + 2#16 := rfl

/-- In a step with a legal fetch the assembled word is the one at `pc`, and dispatch_alu drives its signals for it. -/
theorem blockDriven_of_fetchOk (invalid : Word) (s : State) (h : fetchOk s.pc = true) :
    blockDriven invalid s = some (blockAlu (blockAluIn invalid s (wordAtPc s))) := by
  have hpc := (fetchOk_iff_mod s.pc).1 h
  have lowAddr : (s.pc.extractLsb' 0 12).toNat = s.pc.toNat := by rw [Laws.field_toNat]; omega
  have highAddr : (s.pc.extractLsb' 0 12 + 1#12).toNat = s.pc.toNat + 1 := by
    rw [BitVec.toNat_add, lowAddr]; simp; omega
  simp only [blockDriven, blockFetchUnit, h, if_true, Option.map_some, blockMemory, lowAddr, highAddr]
  rfl

/-- In a step whose fetch faults dispatch_alu drives nothing. -/
theorem blockDriven_of_fetchFault (invalid : Word) (s : State) (h : fetchOk s.pc = false) :
    blockDriven invalid s = none := by
  simp [blockDriven, blockFetchUnit, h]

/-- The word dispatch_alu sends to run_control is the word decoded (R40, R68). -/
@[simp] theorem blockAlu_w (invalid : Word) (s : State) (w : Word) : (blockAlu (blockAluIn invalid s w)).w = w :=
  Laws.joinFields_splitFields w

/-- Push and pop never happen in the same step (R70). -/
theorem blockAlu_not_push_and_pop (i : AluIn) : ¬ ((blockAlu i).pushEn = true ∧ (blockAlu i).popEn = true) := by
  intro ⟨hpush, hpop⟩
  simp only [blockAlu, Bool.and_eq_true, decide_eq_true_eq] at hpush hpop
  rw [hpush.1] at hpop
  cases hpop.1

/-- A step in which dispatch_alu raises a fault writes no register, pushes and pops nothing and loads no `pc` (R70, R74). -/
theorem blockAlu_of_fault (i : AluIn) (h : blockFaultCode i ≠ none) :
    (blockAlu i).wrEn = false ∧ (blockAlu i).flagEn = false ∧ (blockAlu i).pushEn = false ∧
    (blockAlu i).popEn = false ∧ (blockAlu i).pcLoad = false ∧ (blockAlu i).doHalt = false := by
  obtain ⟨⟨fields, kind⟩, pcNext, reads, ⟨full, empty, top⟩⟩ := i
  cases kind <;> cases full <;> cases empty <;> simp_all [blockAlu, blockFaultCode]

end Sys2Proof.Machine
end

