-- ==== Sys2Proof/Laws/Loader.lean ====
section
/-! SUPPORT. What a loader write does, and the canonical form of the launch memory. -/

namespace Sys2Proof.Machine

theorem launch_append (ws : List LoaderWrite) (w : LoaderWrite) : launch (ws ++ [w]) = loaderWrite (launch ws) w := by
  simp [launch]

/-- A loader write touches nothing but memory and registers (R66, R84). -/
theorem loaderWrite_fixed (s : State) (w : LoaderWrite) :
    (loaderWrite s w).pc = s.pc ∧ (loaderWrite s w).sp = s.sp ∧ (loaderWrite s w).stack = s.stack ∧
    (loaderWrite s w).runState = s.runState ∧ (loaderWrite s w).faultCause = s.faultCause ∧
    (loaderWrite s w).faultWord = s.faultWord := by
  cases w <;> exact ⟨rfl, rfl, rfl, rfl, rfl, rfl⟩

theorem loaderWrite_wf (s : State) (w : LoaderWrite) (h : s.mem.wf = true) : (loaderWrite s w).mem.wf = true := by
  cases w with
  | mem a b => exact writeByte_wf s h a b
  | reg i b => exact h

/-- Memory is canonical in every launch state. -/
theorem launch_wf (ws : List LoaderWrite) : (launch ws).mem.wf = true := by
  induction ws using List.reverseRecOn with
  | nil => exact reset_mem_wf
  | append_singleton ws w ih => rw [launch_append]; exact loaderWrite_wf _ w ih

end Sys2Proof.Machine
end

