-- ==== Sys2Proof/Laws/Ops.lean ====
section
/-! SUPPORT. One lemma per shared operation that says everything it can do; later proofs cite it and do not unfold the operation. -/

namespace Sys2Proof.Machine

/-! ## Registers -/

/-- A register read after a register write (R69). -/
theorem readReg_writeReg (s : State) (i j : RegIndex) (b : Byte) :
    readReg (writeReg s i b) j = if i = j then b else readReg s j := by
  simp only [readReg, writeReg_V, Vector.getElem_set, Fin.ext_iff]

@[simp] theorem readReg_setPc (s : State) (w : Word) (i : RegIndex) : readReg (setPc s w) i = readReg s i := rfl
@[simp] theorem readReg_advancePc (s : State) (i : RegIndex) : readReg (advancePc s) i = readReg s i := rfl
@[simp] theorem readReg_raiseFault (s : State) (k : FaultKind) (info : Option Word) (i : RegIndex) :
    readReg (raiseFault k info s) i = readReg s i := rfl
@[simp] theorem readReg_haltRun (s : State) (i : RegIndex) : readReg (haltRun s) i = readReg s i := rfl

/-! ## Bytes of memory -/

@[simp] theorem readByte_writeReg (s : State) (i : RegIndex) (b : Byte) (a : Nat) :
    readByte (writeReg s i b) a = readByte s a := rfl
@[simp] theorem readByte_setPc (s : State) (w : Word) (a : Nat) : readByte (setPc s w) a = readByte s a := rfl
@[simp] theorem readByte_advancePc (s : State) (a : Nat) : readByte (advancePc s) a = readByte s a := rfl
@[simp] theorem readByte_raiseFault (s : State) (k : FaultKind) (info : Option Word) (a : Nat) :
    readByte (raiseFault k info s) a = readByte s a := rfl
@[simp] theorem readByte_haltRun (s : State) (a : Nat) : readByte (haltRun s) a = readByte s a := rfl

/-! ## Call stack -/

/-- A push on a stack that is not full: the entry at the old cursor is written and the cursor raised (R70). -/
theorem push_of_lt (s : State) (v : Word) (h : s.sp.val < 16) :
    push s v = some { s with stack := s.stack.set s.sp.val v, sp := ⟨s.sp.val + 1, Nat.succ_lt_succ h⟩ } :=
  dif_pos h

/-- A push on a full stack gives nothing (R58, R70). -/
theorem push_of_full (s : State) (v : Word) (h : s.sp.val = 16) : push s v = none :=
  dif_neg (by simp [h])

/-- Everything a push can do. -/
theorem push_cases (s : State) (v : Word) :
    (∃ h : s.sp.val < 16,
      push s v = some { s with stack := s.stack.set s.sp.val v, sp := ⟨s.sp.val + 1, Nat.succ_lt_succ h⟩ }) ∨
    (s.sp.val = 16 ∧ push s v = none) := by
  rcases Nat.lt_or_ge s.sp.val 16 with h | h
  · exact .inl ⟨h, push_of_lt s v h⟩
  · have : s.sp.val = 16 := by omega
    exact .inr ⟨this, push_of_full s v this⟩

/-- A pop of a stack that is not empty delivers the entry below the old cursor and changes only the cursor (R70). -/
theorem pop_of_pos (s : State) (h : 0 < s.sp.val) :
    pop s = some (s.stack[s.sp.val - 1], { s with sp := ⟨s.sp.val - 1, by omega⟩ }) :=
  dif_pos h

/-- A pop of an empty stack gives nothing (R59, R70). -/
theorem pop_of_empty (s : State) (h : s.sp.val = 0) : pop s = none :=
  dif_neg (by omega)

/-- Everything a pop can do. -/
theorem pop_cases (s : State) :
    (∃ _ : 0 < s.sp.val,
      pop s = some (s.stack[s.sp.val - 1], { s with sp := ⟨s.sp.val - 1, by omega⟩ })) ∨
    (s.sp.val = 0 ∧ pop s = none) := by
  rcases Nat.eq_zero_or_pos s.sp.val with h | h
  · exact .inr ⟨h, pop_of_empty s h⟩
  · exact .inl ⟨h, pop_of_pos s h⟩

/-! ## The adder -/

theorem exactSum_le (a b : Byte) : exactSum a b ≤ 510 := by
  have ha := a.isLt
  have hb := b.isLt
  simp only [exactSum]
  omega

theorem sumLow_toNat (a b : Byte) : (sumLow a b).toNat = (a.toNat + b.toNat) % 256 := by
  simp [sumLow, exactSum]

/-- The carry is the exact sum divided by 256 (R64). -/
theorem carryFlag_toNat (a b : Byte) : (carryFlag a b).toNat = (a.toNat + b.toNat) / 256 := by
  have h : a.toNat + b.toNat ≤ 510 := exactSum_le a b
  by_cases hc : 256 ≤ a.toNat + b.toNat
  · rw [carryFlag, exactSum, if_pos hc, BitVec.toNat_ofNat]; omega
  · rw [carryFlag, exactSum, if_neg hc, BitVec.toNat_ofNat]; omega

end Sys2Proof.Machine
end

