-- ==== Sys2Proof/Laws/PerInstr.lean ====
section
/-! SUPPORT. Statements made for every instruction, one lemma per constructor. Family OwnRow: the word of an instruction selects its own row of the table and no other (30_encoding.md R43). -/

namespace Sys2Proof.Laws.OwnRow

/-- The rows that the word of `i` selects are exactly its own (R43: the four sets of words are pairwise disjoint). -/
def Statement (i : Instr) : Prop := opcodeTable.filter (fun r => r.selects (encode i)) = [rowOf i]

theorem halt : Statement .halt := by unfold Statement; decide

theorem ret : Statement .ret := by unfold Statement; decide

/-- What a row's mask keeps of a word whose class nibble is known. -/
theorem and_class (cls : Nibble) (rest : Addr) (maskClass : Nibble) (maskRest : Addr) :
    ((cls ++ rest : Word) &&& (maskClass ++ maskRest : Word)) = (cls &&& maskClass) ++ (rest &&& maskRest) :=
  BitVec.and_append

/-- Bit 13 of a CALL's word is set. -/
theorem call_bit13 (addr : Addr) : (0x2#4 ++ addr : Word).getLsbD 13 = true := by
  rw [BitVec.getLsbD_append]
  rfl

/-- A CALL's word selects no row whose mask keeps bit 13 and whose pattern clears it. -/
theorem call_selects_not (addr : Addr) (mask pattern : Word) (hm : mask.getLsbD 13 = true)
    (hp : pattern.getLsbD 13 = false) : (0x2#4 ++ addr : Word) &&& mask ≠ pattern := by
  intro h
  have h13 : ((0x2#4 ++ addr : Word) &&& mask).getLsbD 13 = pattern.getLsbD 13 := by rw [h]
  rw [BitVec.getLsbD_and, call_bit13, hm, hp] at h13
  cases h13

theorem call (addr : Addr) : Statement (.call addr) := by
  have hcall : (0x2#4 ++ addr : Word) &&& 0xF000#16 = 0x2000#16 := by
    rw [show (0xF000#16 : Word) = 0xF#4 ++ 0x000#12 from rfl, and_class]
    simp
  have hhalt := call_selects_not addr 0xFFFF#16 0x0000#16 rfl rfl
  have hret := call_selects_not addr 0xFFFF#16 0x00EE#16 rfl rfl
  have hadd := call_selects_not addr 0xF00F#16 0x8004#16 rfl rfl
  simp only [Statement, opcodeTable, rowOf, encode, TableRow.selects, List.filter, hcall, hhalt, hret, hadd,
    decide_true, decide_false]

theorem add : ∀ x y : RegIndex, Statement (.add x y) := by unfold Statement; decide

end Sys2Proof.Laws.OwnRow
end

