-- ==== Sys2Proof/Laws/Step.lean ====
section
/-! SUPPORT. What the handlers and the step can do, said once: the later proofs cite these and do not unfold `step`. -/

namespace Sys2Proof.Machine

/-! ## Handlers -/

theorem exec_halt (s : State) : exec .halt s = .next (haltRun s) := rfl

theorem exec_add (x y : RegIndex) (s : State) :
    exec (.add x y) s = .next
      (writeReg (writeReg s x (sumLow (readReg s x) (readReg s y))) 15 (carryFlag (readReg s x) (readReg s y))) := rfl

theorem exec_call_of_lt (addr : Addr) (s : State) (h : s.sp.val < 16) :
    exec (.call addr) s = .next { s with
      stack := s.stack.set s.sp.val s.pc
      sp := ⟨s.sp.val + 1, Nat.succ_lt_succ h⟩
      pc := addr.zeroExtend 16 } := by
  simp only [exec, execCall, push_of_lt s s.pc h]
  rfl

theorem exec_call_of_full (addr : Addr) (s : State) (h : s.sp.val = 16) :
    exec (.call addr) s = .next (raiseFault .stackOverflow (some (encode (.call addr))) s) := by
  simp only [exec, execCall, push_of_full s s.pc h]

theorem exec_ret_of_pos (s : State) (h : 0 < s.sp.val) :
    exec .ret s = .next { s with
      sp := ⟨s.sp.val - 1, by omega⟩
      pc := s.stack[s.sp.val - 1] } := by
  simp only [exec, execRet, pop_of_pos s h]
  rfl

theorem exec_ret_of_empty (s : State) (h : s.sp.val = 0) :
    exec .ret s = .next (raiseFault .stackUnderflow (some 0x00EE#16) s) := by
  simp only [exec, execRet, pop_of_empty s h]
  rfl

/-! ## The step -/

theorem step_of_halted (s : State) (h : s.runState = .halted) : step s = .fault .halted := by
  simp only [step, cycle, h]

theorem step_of_faulted (s : State) (h : s.runState = .faulted) :
    step s = .fault (.faulted s.faultCause s.faultWord) := by
  simp only [step, cycle, h]

theorem step_of_running (s : State) (h : s.runState = .running) : step s = runningStep s := by
  simp only [step, cycle, h]

/-- A RUNNING machine whose `pc` is no legal fetch address takes the fetch fault (R49). -/
theorem step_fetchFault (s : State) (hrun : s.runState = .running) (h : fetchOk s.pc = false) :
    step s = .next (raiseFault .fetchFault none s) := by
  rw [step_of_running s hrun, runningStep, fetchWord_of_not_ok s h]

/-- A RUNNING machine at a legal fetch address dispatches the word there, with `pc` advanced (R48, R49). -/
theorem step_dispatch (s : State) (hrun : s.runState = .running) (h : fetchOk s.pc = true) :
    step s = dispatch (wordAtPc s) (advancePc s) := by
  rw [step_of_running s hrun, runningStep, fetchWord_of_ok s h]
  rfl

theorem dispatch_of_ok (w : Word) (i : Instr) (s : State) (h : decode w = .ok i) : dispatch w s = exec i s := by
  simp only [dispatch, h]

theorem dispatch_of_error (w : Word) (e : DecodeReject) (s : State) (h : decode w = .error e) :
    dispatch w s = .next (raiseFault .unimplementedOpcode (some w) s) := by
  simp only [dispatch, h]

/-- Everything a step that answers a next state can have done: it was RUNNING, and it took the fetch fault, or ran the
instruction fetched, or took the unimplemented-opcode fault. -/
theorem step_cases {s t : State} (h : step s = .next t) :
    s.runState = .running ∧
      ((fetchOk s.pc = false ∧ t = raiseFault .fetchFault none s) ∨
       (fetchOk s.pc = true ∧ ∃ i, decode (wordAtPc s) = .ok i ∧ exec i (advancePc s) = .next t) ∨
       (fetchOk s.pc = true ∧ decode (wordAtPc s) = .error (.unimplemented (wordAtPc s)) ∧
         t = raiseFault .unimplementedOpcode (some (wordAtPc s)) (advancePc s))) := by
  cases hr : s.runState with
  | halted => rw [step_of_halted s hr] at h; cases h
  | faulted => rw [step_of_faulted s hr] at h; cases h
  | running =>
    refine ⟨rfl, ?_⟩
    cases hf : fetchOk s.pc with
    | false =>
      rw [step_fetchFault s hr hf] at h
      cases h
      exact .inl ⟨rfl, rfl⟩
    | true =>
      rw [step_dispatch s hr hf] at h
      cases hd : decode (wordAtPc s) with
      | ok i => exact .inr (.inl ⟨rfl, i, rfl, by rw [← h, dispatch_of_ok _ _ _ hd]⟩)
      | error e =>
        rw [dispatch_of_error _ _ _ hd] at h
        cases h
        exact .inr (.inr ⟨rfl, by rw [Laws.decode_error _ _ hd], rfl⟩)

/-- The step from a state with a table word placed runs that word, in the placed state with `pc` advanced. -/
theorem step_withFetchWord (s : State) (nbits w : Nat) (h : s.mem.wf = true) :
    step (s.withFetchWord nbits w) = dispatch (tableWord nbits w) (advancePc (s.withFetchWord nbits w)) := by
  obtain ⟨hrun, hw⟩ := fetchWord_placeFetchWord s (tableWord nbits w) h
  change step (placeFetchWord s (tableWord nbits w)) =
    dispatch (tableWord nbits w) (advancePc (placeFetchWord s (tableWord nbits w)))
  rw [step_of_running _ hrun, runningStep, hw]

/-! ## Runs -/

/-- A run of the host's machine for `n` steps that stops nowhere is `Reaches n`. -/
theorem run_core_iff_reaches (n : Nat) (s t : State) :
    Host.Core.run Sys2Proof.core n s = .next t ↔ Reaches n s t := by
  induction n generalizing s with
  | zero => exact ⟨fun h => (by cases h; rfl), fun h => (by cases h; rfl)⟩
  | succ n ih =>
    cases hs : step s with
    | next u =>
      have hrun : Host.Core.run Sys2Proof.core (n + 1) s = Host.Core.run Sys2Proof.core n u := by
        simp only [Host.Core.run]
        rw [show Sys2Proof.core.step s = .next u from hs]
      rw [hrun, ih]
      exact ⟨fun h => ⟨u, hs, h⟩, fun ⟨v, hv, h⟩ => (by rw [hs] at hv; cases hv; exact h)⟩
    | fault r =>
      have hrun : Host.Core.run Sys2Proof.core (n + 1) s = .fault r := by
        simp only [Host.Core.run]
        rw [show Sys2Proof.core.step s = .fault r from hs]
      exact ⟨fun h => (by rw [hrun] at h; cases h), fun ⟨v, hv, _⟩ => (by rw [hs] at hv; cases hv)⟩
    | refused r =>
      have hrun : Host.Core.run Sys2Proof.core (n + 1) s = .refused r := by
        simp only [Host.Core.run]
        rw [show Sys2Proof.core.step s = .refused r from hs]
      exact ⟨fun h => (by rw [hrun] at h; cases h), fun ⟨v, hv, _⟩ => (by rw [hs] at hv; cases hv)⟩

/-- A property that every step keeps holds after every run from a state that has it. -/
theorem reaches_keeps {P : State → Prop} (hstep : ∀ s t, P s → step s = .next t → P t) {n : Nat} {s t : State}
    (hs : P s) (h : Reaches n s t) : P t := by
  induction n generalizing s with
  | zero => cases h; exact hs
  | succ n ih =>
    obtain ⟨u, hu, ht⟩ := h
    exact ih (hstep s u hs hu) ht

end Sys2Proof.Machine
end

