-- ==== Sys2Proof/Tests/Slice0.lean ====
section
/-! SUPPORT. The model's own tests. Expected values come from the encodings of 30_encoding.md and the vectors of 95_test_vectors.md (named in each comment), worked out there from the rules. The witnesses show that the hypotheses of the statements can be met, each at boundary values. -/

namespace Sys2Proof.Tests

open Sys2Proof.Machine

/-- The next state of an outcome. -/
def next? : Result → Option State
  | .next s => some s
  | .fault _ => none
  | .refused _ => none

/-- What `f` reads in the next state. -/
def sees {α : Type} (r : Result) (f : State → α) : Option α := (next? r).map f

/-- Reset, with `pc`, `sp` and the word at `pc` as given. -/
def at_ (pc w : Word) (sp : StackCursor) : State := placeFetchWord { State.reset with pc := pc, sp := sp } w

def withReg (s : State) (i : RegIndex) (b : Byte) : State := writeReg s i b

def withEntry (s : State) (i : Fin 16) (v : Word) : State := { s with stack := s.stack.set i.val v }

/-! ## Checks on operands and fields refuse ill-formed ones (R47, R40) -/

theorem test_asmCall_refuses_0x1000 : asmCall 0x1000 = none := by decide
theorem test_asmAdd_refuses_x_16 : asmAdd 16 0 = none := by decide
theorem test_asmAdd_refuses_y_16 : asmAdd 0 16 = none := by decide
theorem test_callOperandOk_refuses_0x1000 : callOperandOk 0x1000 = false := by decide
theorem test_addOperandsOk_refuses_16 : addOperandsOk 16 0 = false ∧ addOperandsOk 0 16 = false := by decide
theorem test_fields_refuse_foreign_addr : (Fields.mk 2 1 0 0 0x101).wellFormed = false := by decide
theorem test_operands_accepted :
    asmCall 0xFFF = some (.call 0xFFF) ∧ asmAdd 15 15 = some (.add 15 15) ∧ (Instr.call 0xFFF).wellFormed = true := by
  decide

/-! ## Decoding words written out bit by bit from R43's encoding strings -/

theorem test_decode_halt : decode 0b0000000000000000#16 = .ok .halt := by decide
theorem test_decode_return : decode 0b0000000011101110#16 = .ok .ret := by decide
theorem test_decode_call_0x9C5 : decode 0b0010100111000101#16 = .ok (.call 0b100111000101#12) := by decide
theorem test_decode_add_VA_VB : decode 0b1000101010110100#16 = .ok (.add 0xA 0xB) := by decide
/-- T-U1, T-U8, T-U9, T-U11, T-U13. -/
theorem test_decode_unimplemented :
    decode 0x8015#16 = .error (.unimplemented 0x8015#16) ∧ decode 0x01EE#16 = .error (.unimplemented 0x01EE#16) ∧
    decode 0x0100#16 = .error (.unimplemented 0x0100#16) ∧ decode 0x0004#16 = .error (.unimplemented 0x0004#16) ∧
    decode 0xEE00#16 = .error (.unimplemented 0xEE00#16) := by decide
/-- R39: an instruction is two bytes, high byte first; one byte is none. -/
theorem test_decode_bytes :
    decodeBytes [0x21#8, 0x00#8, 0xAB#8] = .ok (.call 0x100, [0xAB#8]) ∧ decodeBytes [0x21#8] = .error .tooShort := by
  decide
theorem test_decodeTableWord : decodeTableWord 16 0x8AB4 = some (.add 10 11) ∧ decodeTableWord 16 0x8015 = none := by decide
theorem test_encode_words :
    encode (.call 0x9C5) = 0x29C5#16 ∧ encode (.add 10 11) = 0x8AB4#16 ∧ encodeBytes .ret = [0x00#8, 0xEE#8] := by decide

/-! ## One step each (vectors of 95_test_vectors.md part 2) -/

/-- T-H2. -/
theorem test_step_halt :
    sees (step (at_ 0x0104 0x0000 3)) (fun t => (t.runState, t.pc, t.sp)) = some (.halted, 0x0106#16, 3) := by decide
/-- T-C3: the sixteenth entry is usable. -/
theorem test_step_call_last_entry :
    sees (step (at_ 0x00F0 0x2100 15)) (fun t => (stackEntry t 15, t.sp, t.pc, t.runState)) =
      some (0x00F2#16, 16, 0x0100#16, .running) := by decide
/-- T-C4: the seventeenth CALL. -/
theorem test_step_call_full :
    sees (step (withEntry (at_ 0x0100 0x2110 16) 15 0x00F2))
      (fun t => (causeCode t.faultCause, t.faultWord, t.pc, t.sp, stackEntry t 15)) =
      some (2#3, 0x2110#16, 0x0102#16, 16, 0x00F2#16) := by decide
/-- T-R3. -/
theorem test_step_return_from_full :
    sees (step (withEntry (at_ 0x0300 0x00EE 16) 15 0x00F2)) (fun t => (t.sp, t.pc)) = some (15, 0x00F2#16) := by decide
/-- T-R2. -/
theorem test_step_return_empty :
    sees (step (at_ 0x0000 0x00EE 0)) (fun t => (causeCode t.faultCause, t.faultWord, t.pc, t.sp)) =
      some (3#3, 0x00EE#16, 0x0002#16, 0) := by decide
/-- T-A9. -/
theorem test_step_add_carry :
    sees (step (withReg (withReg (at_ 0 0x8AB4 0) 10 0xC8) 11 0x64))
      (fun t => (readReg t 10, readReg t 11, readReg t 15, t.pc)) = some (0x2C#8, 0x64#8, 0x01#8, 0x0002#16) := by decide
/-- T-A20: the flag write wins over the result. -/
theorem test_step_add_into_flag :
    sees (step (withReg (withReg (at_ 0 0x8F04 0) 15 0x05) 0 0x03)) (fun t => readReg t 15) = some 0x00#8 := by decide
/-- T-F6: the recorded word shows the byte order. -/
theorem test_step_unimplemented :
    sees (step (at_ 0 0x1234 0)) (fun t => (causeCode t.faultCause, t.faultWord, t.pc)) =
      some (1#3, 0x1234#16, 0x0002#16) := by decide
/-- T-F3 and T-F5. -/
theorem test_step_fetch_fault :
    sees (step { State.reset with pc := 0x1000 }) (fun t => (causeCode t.faultCause, t.faultWord, t.pc)) =
      some (4#3, 0x0000#16, 0x1000#16) ∧
    sees (step { State.reset with pc := 0x0FFF }) (fun t => (causeCode t.faultCause, t.pc)) =
      some (4#3, 0x0FFF#16) := by decide
/-- P9: nothing loaded. -/
theorem test_step_from_reset :
    sees (step State.reset) (fun t => (t.runState, t.pc)) = some (.halted, 0x0002#16) := by decide
theorem test_withFetchWord_runs_the_word :
    sees (step (State.reset.withFetchWord 16 0x2100)) (fun t => (t.pc, t.sp)) = some (0x0100#16, 1) ∧
    sees (step ({ State.reset with pc := 0x0FFF }.withFetchWord 16 0x2100)) (fun t => t.pc) = some 0x0100#16 := by decide
/-- The other description agrees on a carry into `VF` (T-A18, T-A4). -/
theorem test_blockStep_add :
    readReg (blockStep 0 (withReg (withReg (at_ 0 0x8014 0) 0 0xFF) 1 0xFF)) 0 = 0xFE#8 ∧
    readReg (blockStep 0 (withReg (withReg (at_ 0 0x8F04 0) 15 0x01) 0 0x10)) 15 = 0x00#8 := by decide

/-! ## Witnesses: the hypotheses of the statements can be met -/

/-- LastLoaderWriteToALocationWins: a location that is not written, the highest of each. -/
theorem witness_location_not_written :
    (∀ b, LoaderWrite.mem 0xFFF b ∉ [LoaderWrite.mem 0 1, .reg 15 1]) ∧
    (∀ b, LoaderWrite.reg 15 b ∉ [LoaderWrite.mem 0 1, .reg 14 1]) := by decide
/-- HostProtocolCollapsesToLaunchAndRun: one write, run enable, one step, with the HALT it fetches. -/
theorem witness_protocol_runs :
    (hostedMoves ⟨.load, State.reset⟩ ([.mem 0xFFF 1].map .write ++ .raiseRunEn :: List.replicate 1 .tick)).map
      (fun h => (h.phase, h.core.runState)) = some (.done, .halted) := by decide
/-- DecoderFollowsTheMaskAndMatchTable: a word for each row at the ends of its range, and words of no row beside them. -/
theorem witness_rows :
    0x0000#16 &&& 0xFFFF#16 = 0x0000#16 ∧ 0x00EE#16 &&& 0xFFFF#16 = 0x00EE#16 ∧
    0x2000#16 &&& 0xF000#16 = 0x2000#16 ∧ 0x2FFF#16 &&& 0xF000#16 = 0x2000#16 ∧
    0x8004#16 &&& 0xF00F#16 = 0x8004#16 ∧ 0x8FF4#16 &&& 0xF00F#16 = 0x8004#16 ∧
    MatchesNoRow 0x0001 ∧ MatchesNoRow 0x1FFF ∧ MatchesNoRow 0x3000 ∧ MatchesNoRow 0x8005 ∧ MatchesNoRow 0xFFFF := by
  decide
/-- EncodeOfDecodeIsTheWord. -/
theorem witness_word_decodes : decode 0x2FFF#16 = .ok (.call 0xFFF) ∧ decode 0x8FF4#16 = .ok (.add 15 15) := by decide
/-- AssemblerLinesGiveTheTablesWords: operands on both sides of each bound. -/
theorem witness_assembler_operands :
    (0xFFF : Nat) ≤ 0xFFF ∧ (0xFFF : Nat) < 0x1000 ∧ (0xF : Nat) ≤ 0xF ∧ ((0xF : Nat) < 16 ∨ (0xF : Nat) < 0) := by decide
/-- HaltStopsTheRunAndChangesNothingElse, OnlyCallAndReturnChangeTheFlow: HALT at the last legal address (T-F8). -/
theorem witness_halt_at_last_address :
    (at_ 0x0FFE 0 0).runState = .running ∧ FetchLegal (at_ 0x0FFE 0 0) ∧ wordAtPc (at_ 0x0FFE 0 0) = 0x0000#16 ∧
    wordAtPc (at_ 0x0FFE 0 0) &&& 0xF000#16 ≠ 0x2000#16 ∧ wordAtPc (at_ 0x0FFE 0 0) ≠ 0x00EE#16 := by decide
/-- CallPushesTheReturnAddressAndJumps and ReturnPopsTheReturnAddressIntoPc: `sp` at 15, 16 and 0. -/
theorem witness_stack_bounds :
    (at_ 0 0 15).sp.val < 16 ∧ (at_ 0 0 16).sp.val = 16 ∧ (at_ 0 0 16).sp.val = (15 : Fin 16).val + 1 ∧
    (at_ 0 0 1).sp.val = (0 : Fin 16).val + 1 ∧ (at_ 0 0 0).sp.val = 0 := by decide
/-- CallThenReturnComesBack: CALL 0xFFE at 0x000 with `sp = 15`, RETURN at 0xFFE. -/
theorem witness_call_then_return :
    let s : State := { at_ 0x0000 0x2FFE 15 with mem := [(0, 0x2F), (1, 0xFE), (0xFFF, 0xEE)] }
    s.runState = .running ∧ FetchLegal s ∧ wordAtPc s = encode (.call 0xFFE) ∧ s.sp.val < 16 ∧
    (0xFFE#12).getLsbD 0 = false ∧ (0xFFE#12).toNat ≤ 0x0FFE ∧ readByte s (0xFFE#12).toNat = 0x00#8 ∧
    readByte s ((0xFFE#12).toNat + 1) = 0xEE#8 := by decide
/-- AddWhenOperandsCoincideOrNameTheFlag, AddFollowsTheArithmeticLaws: operands for each of the five cases. -/
theorem witness_add_cases :
    ((14 : RegIndex) ≠ 15 ∧ (0 : RegIndex) ≠ 15 ∧ (14 : RegIndex) ≠ 0) ∧ ((14 : RegIndex) = 14 ∧ (14 : RegIndex) ≠ 15) ∧
    ((15 : RegIndex) = 15 ∧ (14 : RegIndex) ≠ 15) := by decide
/-- StepRunsTheDecodedInstruction. -/
theorem witness_step_decodes :
    let s := at_ 0x0FFE 0x8FF4 0
    s.runState = .running ∧ FetchLegal s ∧ (Instr.add 15 15).wellFormed = true ∧
    decode (wordOfBytes (readByte s s.pc.toNat) (readByte s (s.pc.toNat + 1))) = .ok (.add 15 15) := by decide
/-- FetchReadsTwoBytesAndAdvancesPc, FetchFaultsExactlyAtOddOrOutOfRangePc, EachFaultIsTakenUnderItsConditionOnly,
StepIsTheSpecsWholeBlock, SubBlocksMakeTheSameStep, EveryRunIsFinite: both sides of the fetch test, RUNNING. -/
theorem witness_fetch_bounds :
    State.reset.runState = .running ∧ State.reset.faultCause = none ∧
    FetchLegal { State.reset with pc := 0x0FFE } ∧ FetchFails { State.reset with pc := 0x0FFF } ∧
    FetchFails { State.reset with pc := 0x0001 } ∧ FetchFails { State.reset with pc := 0x1000 } ∧
    RecordConsistent { State.reset with pc := 0x1000 } := by decide
/-- PcAfterEachEvent, EachFaultIsTakenUnderItsConditionOnly: a RUNNING state for each event of R13, `sp` at its bounds. -/
theorem witness_each_event :
    decode (wordAtPc (at_ 0 0x0000 0)) = .ok .halt ∧ decode (wordAtPc (at_ 0 0x8014 0)) = .ok (.add 0 1) ∧
    decode (wordAtPc (at_ 0 0x2FFF 15)) = .ok (.call 0xFFF) ∧ decode (wordAtPc (at_ 0 0x2FFF 16)) = .ok (.call 0xFFF) ∧
    decode (wordAtPc (at_ 0 0x00EE 1)) = .ok .ret ∧ decode (wordAtPc (at_ 0 0x00EE 0)) = .ok .ret ∧
    MatchesNoRow (wordAtPc (at_ 0 0xFFFF 0)) ∧ (at_ 0 0xFFFF 0).runState = .running := by decide
/-- UnimplementedWordFaultsCarryingTheWord. -/
theorem witness_unimplemented_word :
    (at_ 0x0FFE 0x8015 0).runState = .running ∧ FetchLegal (at_ 0x0FFE 0x8015 0) ∧
    MatchesNoRow (wordAtPc (at_ 0x0FFE 0x8015 0)) := by decide
/-- CallToAnOddAddressFaultsAtTheNextFetch: the highest odd address, the last free entry. -/
theorem witness_call_odd :
    let s := at_ 0x0010 0x2FFF 15
    s.runState = .running ∧ FetchLegal s ∧ wordAtPc s = encode (.call 0xFFF) ∧ s.sp.val < 16 ∧
    (0xFFF#12).getLsbD 0 = true := by decide
/-- AFaultWritesTheRecordAndNothingElse: a step that faults after a legal fetch, and one that faults at the fetch. -/
theorem witness_faulting_step :
    (∃ t, step (at_ 0 0x00EE 0) = .next t ∧ t.runState = .faulted ∧ FetchLegal (at_ 0 0x00EE 0)) ∧
    (∃ t, step { State.reset with pc := 0x0FFF } = .next t ∧ t.runState = .faulted ∧
      FetchFails { State.reset with pc := 0x0FFF }) :=
  ⟨⟨_, rfl, by decide, by decide⟩, ⟨_, rfl, by decide, by decide⟩⟩
/-- RunStateChangesOnlyAtHaltOrFault, NothingElseDependsOnTheRegisters: a step and a handler that answer a next state. -/
theorem witness_next_states :
    (∃ t, step (at_ 0 0x2000 15) = .next t ∧ t.sp.val = 16) ∧ (∃ t, exec .ret (at_ 0 0 0) = .next t ∧ t.runState = .faulted) :=
  ⟨⟨_, rfl, by decide⟩, ⟨_, rfl, by decide⟩⟩
/-- NoStepIsDefinedAfterTheRunEnded. -/
theorem witness_ended_states :
    (haltRun State.reset).runState = .halted ∧ (raiseFault .fetchFault none State.reset).runState = .faulted := by decide
/-- OnlyCallAndReturnMoveTheStackPointer: CALL and RETURN on both sides of each bound, and a step that changes `sp`. -/
theorem witness_sp_bounds :
    (∀ sp ∈ [(0 : StackCursor), 15, 16], (at_ 0x00F0 0x2FFF sp).runState = .running ∧ FetchLegal (at_ 0x00F0 0x2FFF sp) ∧
      wordAtPc (at_ 0x00F0 0x2FFF sp) &&& 0xF000#16 = 0x2000#16 ∧ (at_ 0x00F0 0x2FFF sp).sp = sp) ∧
    (∀ sp ∈ [(0 : StackCursor), 1, 16], (at_ 0x00F0 0x00EE sp).runState = .running ∧ FetchLegal (at_ 0x00F0 0x00EE sp) ∧
      wordAtPc (at_ 0x00F0 0x00EE sp) = 0x00EE#16 ∧ (at_ 0x00F0 0x00EE sp).sp = sp) ∧
    sees (step (at_ 0x00F0 0x2FFF 15)) (fun t => t.sp) = some 16 ∧
    sees (step (at_ 0x00F0 0x00EE 1)) (fun t => t.sp) = some 0 := by decide
/-- OnlyCallWritesAStackEntry: a step that changes the last entry. -/
theorem witness_entry_changes :
    ∃ t, step (at_ 0x00F0 0x2100 15) = .next t ∧ stackEntry t 15 ≠ stackEntry (at_ 0x00F0 0x2100 15) 15 :=
  ⟨_, rfl, by decide⟩
/-- OnlyAddWritesARegister: a step that changes the destination, and one that changes `VF`. -/
theorem witness_register_changes :
    (∃ t, step (withReg (at_ 0 0x8EE4 0) 14 0x01) = .next t ∧ readReg t 14 ≠ 0x01#8) ∧
    (∃ t, step (withReg (at_ 0 0x8EE4 0) 14 0x80) = .next t ∧ readReg t 15 ≠ 0x00#8) :=
  ⟨⟨_, rfl, by decide⟩, ⟨_, rfl, by decide⟩⟩
/-- FlagIsZeroOrOneFromAnyAddOn: a state reached after an ADD. -/
theorem witness_after_add :
    ∃ t, exec (.add 0 1) State.reset = .next t ∧ ∃ u, Reaches 1 t u ∧ u.runState = .halted :=
  ⟨_, rfl, _, ⟨_, rfl, rfl⟩, by decide⟩
/-- EveryFetchReadsTheLaunchMemory, FaultRecordIsZeroUntilAFault: runs of one step that go on, halt and fault. -/
theorem witness_runs :
    (∃ t, Reaches 1 (launch [.mem 0 0x80, .mem 1 0x04]) t ∧ t.runState = .running ∧ fetchWord t = some 0x0000#16) ∧
    (∃ t, Reaches 1 (launch []) t ∧ t.runState = .halted) ∧
    (∃ t, Reaches 1 (launch [.mem 1 0xEE]) t ∧ t.runState = .faulted) :=
  ⟨⟨_, ⟨_, rfl, rfl⟩, by decide, by decide⟩, ⟨_, ⟨_, rfl, rfl⟩, by decide⟩, ⟨_, ⟨_, rfl, rfl⟩, by decide⟩⟩
/-- EveryStepKeepsTheReachableStateInvariant: a state at the bounds of the invariant, and its step. -/
theorem witness_invariant_state :
    let s := withEntry (at_ 0x0FFE 0x2FFF 1) 0 0x1000
    Inv s ∧ ∃ t, step s = .next t := by
  exact ⟨by decide, ⟨_, rfl⟩⟩
/-- OddPcComesOnlyFromACallToAnOddAddress: both ways to an odd `pc`. -/
theorem witness_odd_pc :
    (StackEntriesLegal (at_ 0 0x2FFF 0) ∧ ∃ t, step (at_ 0 0x2FFF 0) = .next t ∧ t.pc.getLsbD 0 = true) ∧
    (StackEntriesLegal { State.reset with pc := 0x0001 } ∧
      ∃ t, step { State.reset with pc := 0x0001 } = .next t ∧ t.pc.getLsbD 0 = true) :=
  ⟨⟨by decide, _, rfl, by decide⟩, ⟨by decide, _, rfl, by decide⟩⟩
/-- CanonicalMemoriesWithEqualBytesAreEqual: two ways to one memory; and the form refuses what is not canonical. -/
theorem witness_canonical_memories :
    (Memory.put (Memory.put [] 0xFFF 1) 0 2).wf = true ∧
    Memory.put (Memory.put [] 0xFFF 1) 0 2 = Memory.put (Memory.put (Memory.put (Memory.put [] 0 2) 5 7) 0xFFF 1) 5 0 ∧
    Memory.wf [(0, 0x00#8)] = false ∧ Memory.wf [(2, 1), (1, 1)] = false ∧ Memory.wf [(4096, 1)] = false := by decide
/-- PopAfterPushDeliversTheValue: a push of the last free entry, and none on a full stack. -/
theorem witness_push :
    (push (at_ 0 0 15) 0xABCD).isSome = true ∧ (push (at_ 0 0 16) 0xABCD).isSome = false ∧
    (pop (at_ 0 0 0)).isSome = false := by decide

end Sys2Proof.Tests
end

section
/-! The step and the step of its sub-blocks (00_scope.md R2, 50_interfaces.md R68 to R70). What dispatch_alu drives for
a word is compared with the handler of the instruction the word decodes to, one instruction at a time. -/

namespace Sys2Proof.Machine

/-! ## decoder: the mask rows of R43 and the chain of R51 classify alike -/

/-- A word as a number, from its nibbles (R40). -/
theorem joinFields_toNat (f : Fields) :
    (joinFields f).toNat = f.cls.toNat * 4096 + f.x.toNat * 256 + f.y.toNat * 16 + f.d.toNat := by
  simp only [joinFields, Laws.append_toNat]
  omega

/-- Two words are equal when their four nibbles are. -/
theorem joinFields_eq_iff (f g : Fields) :
    joinFields f = joinFields g ↔ f.cls = g.cls ∧ f.x = g.x ∧ f.y = g.y ∧ f.d = g.d := by
  have hf := joinFields_toNat f
  have hg := joinFields_toNat g
  simp only [← BitVec.toNat_inj, hf, hg]
  omega

/-- A mask works nibble by nibble. -/
theorem joinFields_and (f g : Fields) :
    joinFields f &&& joinFields g = joinFields ⟨f.cls &&& g.cls, f.x &&& g.x, f.y &&& g.y, f.d &&& g.d, f.addr⟩ :=
  BitVec.and_append.trans (congrArg (· ++ _) (BitVec.and_append.trans (congrArg (· ++ _) BitVec.and_append)))

/-- The test of a mask row, nibble by nibble. -/
theorem and_eq_iff_nibbles (w : Word) (m p : Fields) :
    w &&& joinFields m = joinFields p ↔ (splitFields w).cls &&& m.cls = p.cls ∧ (splitFields w).x &&& m.x = p.x ∧
      (splitFields w).y &&& m.y = p.y ∧ (splitFields w).d &&& m.d = p.d := by
  conv_lhs => rw [← Laws.joinFields_splitFields w, joinFields_and]
  exact joinFields_eq_iff _ _

theorem nibble_and_ones (n : Nibble) : n &&& 0xF#4 = n := BitVec.and_allOnes

/-- The kind decoder sends for an answer of `decode` (R45, R68). -/
def kindOfDecode : Except DecodeReject Instr → Kind
  | .ok .halt => .halt
  | .ok .ret => .ret
  | .ok (.call _) => .call
  | .ok (.add _ _) => .add
  | .error _ => .unimpl

/-- The mask rows of R43 and the chain of R51 give every word the same classification. -/
theorem blockKind_eq_kindOfDecode (w : Word) : blockKind w = kindOfDecode (decode w) := by
  have hhalt : w &&& 0xFFFF#16 = 0x0000#16 ↔ _ :=
    and_eq_iff_nibbles w ⟨0xF, 0xF, 0xF, 0xF, 0⟩ ⟨0x0, 0x0, 0x0, 0x0, 0⟩
  have hret : w &&& 0xFFFF#16 = 0x00EE#16 ↔ _ :=
    and_eq_iff_nibbles w ⟨0xF, 0xF, 0xF, 0xF, 0⟩ ⟨0x0, 0x0, 0xE, 0xE, 0⟩
  have hcall : w &&& 0xF000#16 = 0x2000#16 ↔ _ :=
    and_eq_iff_nibbles w ⟨0xF, 0x0, 0x0, 0x0, 0⟩ ⟨0x2, 0x0, 0x0, 0x0, 0⟩
  have hadd : w &&& 0xF00F#16 = 0x8004#16 ↔ _ :=
    and_eq_iff_nibbles w ⟨0xF, 0x0, 0x0, 0xF, 0⟩ ⟨0x8, 0x0, 0x0, 0x4, 0⟩
  simp only [BitVec.ofNat_eq_ofNat, nibble_and_ones, BitVec.and_zero, true_and, and_true] at hhalt hret hcall hadd
  simp only [blockKind, decode, classify, hhalt, hret, hcall, hadd]
  split_ifs <;> rfl

/-! ## decoder: the fields of a decoded word -/

/-- A word that decodes to an instruction is that instruction's own (R43). -/
theorem encode_of_decode {w : Word} {i : Instr} (h : decode w = .ok i) : encode i = w := by
  have lt := w.isLt
  rw [Laws.decode_eq] at h
  apply BitVec.eq_of_toNat_eq
  split_ifs at h with hhalt hret hcall hadd <;> cases h
  · exact hhalt.symm
  · exact hret.symm
  · rw [Laws.encode_call_toNat, Laws.field_toNat]
    omega
  · rw [Laws.encode_add_toNat, BitVec.val_toFin, BitVec.val_toFin, Laws.field_toNat, Laws.field_toNat]
    omega

/-- The address field of a CALL's word is its operand (R41). -/
theorem splitFields_encode_call_addr (addr : Addr) : (splitFields (encode (.call addr))).addr = addr := by
  apply BitVec.eq_of_toNat_eq
  have := addr.isLt
  rw [Laws.splitFields_addr_toNat, Laws.encode_call_toNat]
  omega

/-- The register fields of an ADD's word select its operands (R41, R42). -/
theorem regOfNibble_encode_add_x (x y : RegIndex) : regOfNibble (splitFields (encode (.add x y))).x = x := by
  apply Fin.ext
  rw [regOfNibble, BitVec.val_toFin, Laws.splitFields_x_toNat, Laws.encode_add_toNat]
  omega

theorem regOfNibble_encode_add_y (x y : RegIndex) : regOfNibble (splitFields (encode (.add x y))).y = y := by
  apply Fin.ext
  rw [regOfNibble, BitVec.val_toFin, Laws.splitFields_y_toNat, Laws.encode_add_toNat]
  omega

/-! ## dispatch_alu: the adder -/

theorem blockSum_toNat (r : ReadData) : (blockSum r).toNat = r.ra.toNat + r.rb.toNat := by
  have ha := r.ra.isLt
  have hb := r.rb.isLt
  simp only [blockSum, BitVec.toNat_add, BitVec.toNat_setWidth]
  omega

/-- `sum[7:0]` is the result of ADD (R62, R68). -/
theorem blockSum_low (r : ReadData) : (blockSum r).extractLsb' 0 8 = sumLow r.ra r.rb := by
  apply BitVec.eq_of_toNat_eq
  rw [Laws.field_toNat, blockSum_toNat, sumLow_toNat]
  omega

/-- `sum[8]`, widened to a register, is the value of `VF` after ADD (R62, R68). -/
theorem blockSum_carry (r : ReadData) : ((blockSum r).extractLsb' 8 1).zeroExtend 8 = carryFlag r.ra r.rb := by
  apply BitVec.eq_of_toNat_eq
  have ha := r.ra.isLt
  have hb := r.rb.isLt
  rw [BitVec.toNat_setWidth, Laws.field_toNat, blockSum_toNat, carryFlag_toNat]
  omega

/-! ## What the sub-blocks make of dispatch_alu's signals -/

/-- The state the sub-blocks make of the signals `o` in a step that fetched a word. -/
def blockApply (s : State) (o : AluOut) : State :=
  let r := blockRunControl ⟨s.runState, s.faultCause, s.faultWord⟩ false (some o)
  { V := blockRegisterFile s.V o
    pc := blockNextPc (blockFetchUnit s.pc) o
    mem := s.mem
    stack := blockStackEntries s.stack s.sp o
    sp := blockCursor s.sp o
    runState := r.runState
    faultCause := r.faultCause
    faultWord := r.faultWord }

theorem blockStep_of_fetchOk (invalid : Word) (s : State) (h : fetchOk s.pc = true) :
    blockStep invalid s = blockApply s (blockAlu (blockAluIn invalid s (wordAtPc s))) := by
  simp only [blockStep, blockDriven_of_fetchOk invalid s h, blockFetchUnit_fetchFault, h]
  rfl

theorem blockStep_of_fetchFault (invalid : Word) (s : State) (h : fetchOk s.pc = false) :
    blockStep invalid s = raiseFault .fetchFault none s := by
  simp only [blockStep, blockDriven_of_fetchFault invalid s h, blockFetchUnit_fetchFault, h]
  rfl

/-- Signals that raise a fault and enable nothing write the fault record, and `pc` advances (R70, R74). -/
theorem blockApply_of_fault (invalid : Word) (s : State) (w : Word) (k : FaultKind)
    (h : blockFaultCode (blockAluIn invalid s w) = some k) :
    blockApply s (blockAlu (blockAluIn invalid s w)) = raiseFault k (some w) (advancePc s) := by
  obtain ⟨hwr, hflag, hpush, hpop, hload, -⟩ :=
    blockAlu_of_fault (blockAluIn invalid s w) (by rw [h]; exact Option.some_ne_none k)
  have hcode : (blockAlu (blockAluIn invalid s w)).faultCode = some k := h
  simp only [blockApply, blockRunControl, blockRegisterFile, blockNextPc, blockStackEntries, blockCursor, hwr, hflag,
    hpush, hpop, hload, hcode, blockAlu_w]
  rfl

/-- Signals that raise no fault: the kind of the instruction alone selects what is written (R68 to R70). -/
theorem blockApply_of_noFault (s : State) (i : AluIn) (h : blockFaultCode i = none) :
    blockApply s (blockAlu i) =
      { V := if i.dec.kind = .add then
            (s.V.set (regOfNibble i.dec.fields.x).val (sumLow i.reads.ra i.reads.rb)).set 15
              (carryFlag i.reads.ra i.reads.rb)
          else s.V
        pc := if i.dec.kind = .call then i.dec.fields.addr.zeroExtend 16
          else if i.dec.kind = .ret then i.stk.top else s.pc + 2#16
        mem := s.mem
        stack := if hp : i.dec.kind = .call ∧ s.sp.val < 16 then s.stack.set s.sp.val i.pcNext hp.2 else s.stack
        sp := if hp : i.dec.kind = .call ∧ s.sp.val < 16 then ⟨s.sp.val + 1, Nat.succ_lt_succ hp.2⟩
          else if i.dec.kind = .ret ∧ 0 < s.sp.val then ⟨s.sp.val - 1, by omega⟩ else s.sp
        runState := if i.dec.kind = .halt then .halted else s.runState
        faultCause := s.faultCause
        faultWord := s.faultWord } := by
  have hcode : (blockAlu i).faultCode = none := h
  simp only [blockApply, blockRunControl, hcode]
  obtain ⟨⟨fields, kind⟩, pcNext, reads, ⟨full, empty, top⟩⟩ := i
  cases kind <;> simp_all [blockAlu, blockFaultCode, blockRegisterFile, blockNextPc, blockStackEntries, blockCursor,
    blockSum_low, blockSum_carry]

/-! ## The signals into dispatch_alu -/

section
variable (invalid : Word) (s : State) (w : Word)

@[simp] theorem blockAluIn_kind : (blockAluIn invalid s w).dec.kind = blockKind w := rfl
@[simp] theorem blockAluIn_fields : (blockAluIn invalid s w).dec.fields = splitFields w := rfl
@[simp] theorem blockAluIn_pcNext : (blockAluIn invalid s w).pcNext = s.pc + 2#16 := rfl
@[simp] theorem blockAluIn_full : (blockAluIn invalid s w).stk.full = decide (s.sp.val = 16) := rfl
@[simp] theorem blockAluIn_empty : (blockAluIn invalid s w).stk.empty = decide (s.sp.val = 0) := rfl
@[simp] theorem blockAluIn_ra : (blockAluIn invalid s w).reads.ra = readReg s (regOfNibble (splitFields w).x) := rfl
@[simp] theorem blockAluIn_rb : (blockAluIn invalid s w).reads.rb = readReg s (regOfNibble (splitFields w).y) := rfl

/-- `top` is the newest entry while it is valid (R68). -/
theorem blockAluIn_top_of_pos (h : 0 < s.sp.val) :
    (blockAluIn invalid s w).stk.top = s.stack[s.sp.val - 1]'(by omega) := dif_pos h

end

/-! ## The handler of each instruction and the signals for its word -/

theorem exec_halt_eq_blockApply (invalid : Word) (s : State) :
    exec .halt (advancePc s) = .next (blockApply s (blockAlu (blockAluIn invalid s (encode .halt)))) := by
  have hk : blockKind (encode .halt) = .halt := by decide
  rw [exec_halt, blockApply_of_noFault s _ (by simp [blockFaultCode, hk])]
  simp [hk, haltRun, advancePc, setPc]

theorem exec_ret_eq_blockApply (invalid : Word) (s : State) :
    exec .ret (advancePc s) = .next (blockApply s (blockAlu (blockAluIn invalid s (encode .ret)))) := by
  have hk : blockKind (encode .ret) = .ret := by decide
  rcases Nat.eq_zero_or_pos s.sp.val with hsp | hsp
  · rw [exec_ret_of_empty (advancePc s) hsp,
      blockApply_of_fault invalid s _ .stackUnderflow (by simp [blockFaultCode, hk, hsp])]
    rfl
  · rw [exec_ret_of_pos (advancePc s) hsp, blockApply_of_noFault s _ (by simp [blockFaultCode, hk, hsp.ne'])]
    simp [hk, hsp, blockAluIn_top_of_pos]

theorem exec_call_eq_blockApply (invalid : Word) (addr : Addr) (s : State)
    (hk : blockKind (encode (.call addr)) = .call) :
    exec (.call addr) (advancePc s) =
      .next (blockApply s (blockAlu (blockAluIn invalid s (encode (.call addr))))) := by
  rcases Nat.lt_or_ge s.sp.val 16 with hsp | hsp
  · rw [exec_call_of_lt addr (advancePc s) hsp, blockApply_of_noFault s _ (by simp [blockFaultCode, hk, hsp.ne])]
    simp [hk, hsp, splitFields_encode_call_addr]
  · have hfull : s.sp.val = 16 := by omega
    rw [exec_call_of_full addr (advancePc s) hfull,
      blockApply_of_fault invalid s _ .stackOverflow (by simp [blockFaultCode, hk, hfull])]

theorem exec_add_eq_blockApply (invalid : Word) (x y : RegIndex) (s : State)
    (hk : blockKind (encode (.add x y)) = .add) :
    exec (.add x y) (advancePc s) =
      .next (blockApply s (blockAlu (blockAluIn invalid s (encode (.add x y))))) := by
  rw [exec_add, readReg_advancePc, readReg_advancePc, blockApply_of_noFault s _ (by simp [blockFaultCode, hk])]
  simp [hk, regOfNibble_encode_add_x, regOfNibble_encode_add_y, writeReg, advancePc, setPc]

/-- The step after a legal fetch of any word is what the sub-blocks make of the signals for that word. -/
theorem dispatch_eq_blockApply (invalid : Word) (s : State) (w : Word) :
    dispatch w (advancePc s) = .next (blockApply s (blockAlu (blockAluIn invalid s w))) := by
  have hk := blockKind_eq_kindOfDecode w
  cases hd : decode w with
  | error e =>
    rw [hd] at hk
    have hcode : blockFaultCode (blockAluIn invalid s w) = some .unimplementedOpcode := by
      simp only [blockFaultCode, blockAluIn_kind, hk, kindOfDecode]
    rw [dispatch_of_error w e _ hd, blockApply_of_fault invalid s w _ hcode]
  | ok i =>
    rw [dispatch_of_ok w i _ hd]
    rw [hd] at hk
    obtain rfl := encode_of_decode hd
    cases i with
    | halt => exact exec_halt_eq_blockApply invalid s
    | ret => exact exec_ret_eq_blockApply invalid s
    | call addr => exact exec_call_eq_blockApply invalid addr s hk
    | add x y => exact exec_add_eq_blockApply invalid x y s hk

/-- Settles O45, by the two sides of the fetch test: a fetch fault leaves every sub-block but run_control alone, and
after a legal fetch each handler is what the signals for its word make. -/
theorem subBlocksMakeTheSameStep : Obligations.SubBlocksMakeTheSameStep := by
  intro s invalid hrun
  cases hf : fetchOk s.pc with
  | false => rw [step_fetchFault s hrun hf, blockStep_of_fetchFault invalid s hf]
  | true => rw [step_dispatch s hrun hf, blockStep_of_fetchOk invalid s hf, dispatch_eq_blockApply]

end Sys2Proof.Machine
end

section
/-! The architectural state (10_state.md): what every step does to each piece of it, which values it can hold (R23), and
what each item depends on. A step is taken apart once, into its eight events (`StepArm`). -/

namespace Sys2Proof.Machine

/-! ## The rows of R43 and the answers of the decoder -/

theorem word_and_ones (w : Word) : w &&& 0xFFFF#16 = w := BitVec.and_allOnes

/-- The word 0x0000, and no other, is HALT (R43). -/
theorem haltWord_iff (w : Word) : w = 0x0000#16 ↔ decode w = .ok .halt :=
  ⟨fun h => by rw [h]; decide, fun h => (encode_of_decode h).symm⟩

/-- The word 0x00EE, and no other, is RETURN (R43). -/
theorem retWord_iff (w : Word) : w = 0x00EE#16 ↔ decode w = .ok .ret :=
  ⟨fun h => by rw [h]; decide, fun h => (encode_of_decode h).symm⟩

theorem blockKind_of_callRow {w : Word} (h : w &&& 0xF000#16 = 0x2000#16) : blockKind w = .call := by
  have hhalt : w &&& 0xFFFF#16 ≠ 0x0000#16 := by
    rw [word_and_ones]; rintro rfl; exact absurd h (by decide)
  have hret : w &&& 0xFFFF#16 ≠ 0x00EE#16 := by
    rw [word_and_ones]; rintro rfl; exact absurd h (by decide)
  rw [blockKind, if_neg hhalt, if_neg hret, if_pos h]

/-- The row of CALL selects exactly the words that decode to a CALL (R43). -/
theorem callRow_iff (w : Word) : w &&& 0xF000#16 = 0x2000#16 ↔ ∃ addr, decode w = .ok (.call addr) := by
  constructor
  · intro h
    have hk := blockKind_of_callRow h
    rw [blockKind_eq_kindOfDecode] at hk
    match hd : decode w with
    | .ok (.call addr) => exact ⟨addr, rfl⟩
    | .ok .halt | .ok .ret | .ok (.add _ _) | .error _ => rw [hd] at hk; cases hk
  · rintro ⟨addr, h⟩
    rw [← encode_of_decode h]
    exact (Laws.OwnRow.and_class 0x2 addr 0xF 0x000).trans (by simp)

theorem matchesNoRow_iff_blockKind (w : Word) : MatchesNoRow w ↔ blockKind w = .unimpl := by
  simp only [MatchesNoRow, blockKind]
  split_ifs <;> simp [*]

/-- The words of no row are the ones the decoder rejects (R43, R45). -/
theorem matchesNoRow_iff (w : Word) : MatchesNoRow w ↔ decode w = .error (.unimplemented w) := by
  rw [matchesNoRow_iff_blockKind, blockKind_eq_kindOfDecode]
  match hd : decode w with
  | .ok .halt | .ok .ret | .ok (.call _) | .ok (.add _ _) => simp [kindOfDecode]
  | .error e => simp [kindOfDecode, Laws.decode_error w e hd]

/-! ## The fetch test -/

theorem fetchOk_of_legal {s : State} (h : FetchLegal s) : fetchOk s.pc = true := (fetchOk_iff s.pc).2 h

theorem fetchLegal_or_fails (s : State) : FetchLegal s ∨ FetchFails s := by
  rcases hbit : s.pc.getLsbD 0 with _ | _
  · exact (Nat.lt_or_ge 0x0FFE s.pc.toNat).symm.imp (⟨hbit, ·⟩) .inr
  · exact .inr (.inl hbit)

/-- `FetchFails` is the other side of `FetchLegal` (R30). -/
theorem not_fetchFails_of_legal {s : State} (h : FetchLegal s) : ¬ FetchFails s := by
  obtain ⟨heven, hle⟩ := h
  rintro (hodd | hgt)
  · rw [heven] at hodd; cases hodd
  · omega

theorem fetchOk_of_fails {s : State} (h : FetchFails s) : fetchOk s.pc = false :=
  Bool.eq_false_iff.2 fun hok => not_fetchFails_of_legal ((fetchOk_iff s.pc).1 hok) h

/-- The address after a word that was fetched is even and at most 0x1000 (R12, R49). -/
theorem nextPc_legal {s : State} (h : FetchLegal s) :
    IsEven (s.pc + Config.pcStep) ∧ (s.pc + Config.pcStep).toNat ≤ 0x1000 := by
  have hnext : (s.pc + Config.pcStep).toNat = s.pc.toNat + 2 := advancePc_toNat s (fetchOk_of_legal h)
  obtain ⟨heven, hle⟩ := h
  rw [getLsbD_zero_iff] at heven
  exact ⟨(getLsbD_zero_iff _).2 (by omega), by omega⟩

/-! ## The eight events of a step -/

/-- `StepArm s t`: the event by which a step of a RUNNING machine takes `s` to `t`, with what makes it that event (the
rows of R13's table). `k` is the entry of the call stack that is written or read. -/
inductive StepArm (s : State) : State → Prop where
  | fetchFault (hfetch : FetchFails s) : StepArm s (raiseFault .fetchFault none s)
  | unimplemented (hfetch : FetchLegal s) (hdec : decode (wordAtPc s) = .error (.unimplemented (wordAtPc s))) :
      StepArm s (raiseFault .unimplementedOpcode (some (wordAtPc s)) (advancePc s))
  | halt (hfetch : FetchLegal s) (hdec : decode (wordAtPc s) = .ok .halt) : StepArm s (haltRun (advancePc s))
  | add (x y : RegIndex) (hfetch : FetchLegal s) (hdec : decode (wordAtPc s) = .ok (.add x y)) :
      StepArm s (writeReg (writeReg (advancePc s) x (sumLow (readReg s x) (readReg s y))) 15
        (carryFlag (readReg s x) (readReg s y)))
  | call (addr : Addr) (k : Fin 16) (hfetch : FetchLegal s) (hdec : decode (wordAtPc s) = .ok (.call addr))
      (hsp : s.sp.val = k.val) :
      StepArm s { s with
        stack := s.stack.set k.val (s.pc + Config.pcStep)
        sp := k.succ
        pc := addr.zeroExtend 16 }
  | callFull (addr : Addr) (hfetch : FetchLegal s) (hdec : decode (wordAtPc s) = .ok (.call addr))
      (hsp : s.sp.val = 16) :
      StepArm s (raiseFault .stackOverflow (some (encode (.call addr))) (advancePc s))
  | ret (k : Fin 16) (hfetch : FetchLegal s) (hdec : decode (wordAtPc s) = .ok .ret) (hsp : s.sp.val = k.val + 1) :
      StepArm s { s with
        sp := k.castSucc
        pc := stackEntry s k }
  | retEmpty (hfetch : FetchLegal s) (hdec : decode (wordAtPc s) = .ok .ret) (hsp : s.sp.val = 0) :
      StepArm s (raiseFault .stackUnderflow (some 0x00EE#16) (advancePc s))

theorem step_of_decode {s : State} {i : Instr} (hrun : s.runState = .running) (hfetch : FetchLegal s)
    (hdec : decode (wordAtPc s) = .ok i) : step s = exec i (advancePc s) := by
  rw [step_dispatch s hrun (fetchOk_of_legal hfetch), dispatch_of_ok _ _ _ hdec]

/-- The step of a RUNNING machine goes where its event says. -/
theorem StepArm.step_eq {s t : State} (harm : StepArm s t) (hrun : s.runState = .running) : step s = .next t := by
  cases harm with
  | fetchFault hfetch => exact step_fetchFault s hrun (fetchOk_of_fails hfetch)
  | unimplemented hfetch hdec =>
    rw [step_dispatch s hrun (fetchOk_of_legal hfetch), dispatch_of_error _ _ _ hdec]
  | halt hfetch hdec => rw [step_of_decode hrun hfetch hdec, exec_halt]
  | add x y hfetch hdec => rw [step_of_decode hrun hfetch hdec, exec_add, readReg_advancePc, readReg_advancePc]
  | call addr k hfetch hdec hsp =>
    have hlt : s.sp.val < 16 := hsp ▸ k.isLt
    rw [step_of_decode hrun hfetch hdec, exec_call_of_lt addr (advancePc s) hlt]
    simp [hsp, Fin.succ]
  | callFull addr hfetch hdec hsp => rw [step_of_decode hrun hfetch hdec, exec_call_of_full addr (advancePc s) hsp]
  | ret k hfetch hdec hsp =>
    have hpos : 0 < s.sp.val := by omega
    rw [step_of_decode hrun hfetch hdec, exec_ret_of_pos (advancePc s) hpos]
    simp [hsp, stackEntry, Fin.ext_iff]
  | retEmpty hfetch hdec hsp => rw [step_of_decode hrun hfetch hdec, exec_ret_of_empty (advancePc s) hsp]

/-- Every state has an event: the fetch test, the answer of the decoder and the bound on `sp` select it. -/
theorem exists_stepArm (s : State) : ∃ t, StepArm s t := by
  rcases fetchLegal_or_fails s with hfetch | hfetch
  swap
  · exact ⟨_, .fetchFault hfetch⟩
  match hdec : decode (wordAtPc s) with
  | .error e => exact ⟨_, .unimplemented hfetch (Laws.decode_error _ e hdec ▸ hdec)⟩
  | .ok .halt => exact ⟨_, .halt hfetch hdec⟩
  | .ok (.add x y) => exact ⟨_, .add x y hfetch hdec⟩
  | .ok (.call addr) =>
    rcases Nat.lt_or_ge s.sp.val 16 with hsp | hsp
    · exact ⟨_, .call addr ⟨s.sp.val, hsp⟩ hfetch hdec rfl⟩
    · exact ⟨_, .callFull addr hfetch hdec (by omega)⟩
  | .ok .ret =>
    rcases Nat.eq_zero_or_pos s.sp.val with hsp | hsp
    · exact ⟨_, .retEmpty hfetch hdec hsp⟩
    · exact ⟨_, .ret ⟨s.sp.val - 1, by omega⟩ hfetch hdec (Nat.sub_add_cancel hsp).symm⟩

/-- A step answers a next state exactly when the machine is RUNNING, and then by one of the eight events. -/
theorem step_eq_next_iff (s t : State) : step s = .next t ↔ s.runState = .running ∧ StepArm s t := by
  constructor
  · intro h
    obtain ⟨hrun, -⟩ := step_cases h
    obtain ⟨u, harm⟩ := exists_stepArm s
    obtain rfl : t = u := by simpa [harm.step_eq hrun] using h.symm
    exact ⟨hrun, harm⟩
  · rintro ⟨hrun, harm⟩
    exact harm.step_eq hrun

/-- An entry of the call stack after another was written. -/
theorem stackEntry_set (s : State) (k i : Fin 16) (v pc : Word) (sp : StackCursor) :
    stackEntry { s with stack := s.stack.set k.val v, sp := sp, pc := pc } i =
      if k = i then v else stackEntry s i := by
  simp only [stackEntry, Vector.getElem_set, Fin.ext_iff]

/-! ## The invariant of reachable states (R23) -/

section
variable {s t : State}

theorem StepArm.mem_eq (harm : StepArm s t) : t.mem = s.mem := by cases harm <;> rfl

/-- R23 item 2: a CALL address has 12 bits, a RETURN takes a legal entry, and otherwise the fetch alone moves `pc`. -/
theorem StepArm.keeps_pcInRange (harm : StepArm s t) (hpc : PcInRange s) (hstack : StackEntriesLegal s) :
    PcInRange t := by
  cases harm with
  | fetchFault => exact hpc
  | call addr =>
    have := addr.isLt
    simp only [PcInRange, BitVec.toNat_setWidth]
    omega
  | ret k => exact (hstack k).2
  | unimplemented hfetch | halt hfetch | add _ _ hfetch | callFull _ hfetch | retEmpty hfetch =>
    exact (nextPc_legal hfetch).2

/-- R23 item 3: the one entry a step can write gets the address after a word that was fetched. -/
theorem StepArm.keeps_stackEntriesLegal (harm : StepArm s t) (hstack : StackEntriesLegal s) :
    StackEntriesLegal t := by
  cases harm with
  | call addr k hfetch =>
    intro i
    rw [stackEntry_set]
    split
    · exact nextPc_legal hfetch
    · exact hstack i
  | _ => exact hstack

theorem recordConsistent_of_noFault (hcause : t.faultCause = none) (hrun : t.runState ≠ .faulted)
    (hword : t.faultWord = 0x0000#16) : RecordConsistent t :=
  ⟨⟨fun h => absurd hcause h, fun h => absurd h hrun⟩, fun _ => hword⟩

/-- A fault after the fetch is recorded with its cause, which is not the fetch fault (R74). -/
theorem recordConsistent_raiseFault (k : FaultKind) (info : Option Word) (s : State)
    (hword : k = .fetchFault → info.getD s.faultWord = 0x0000#16) : RecordConsistent (raiseFault k info s) := by
  simpa [RecordConsistent] using hword

/-- R23 item 6: before the step nothing is recorded, since the machine is RUNNING. -/
theorem StepArm.keeps_recordConsistent (harm : StepArm s t) (hrun : s.runState = .running)
    (hrec : RecordConsistent s) : RecordConsistent t := by
  obtain ⟨hcause, hword⟩ := hrec
  have hnone : s.faultCause = none := by simpa [hrun] using hcause
  have hzero : s.faultWord = 0x0000#16 := hword (.inl hnone)
  cases harm with
  | fetchFault => exact recordConsistent_raiseFault _ _ _ fun _ => hzero
  | unimplemented | callFull | retEmpty => exact recordConsistent_raiseFault _ _ _ nofun
  | halt => exact recordConsistent_of_noFault hnone (by simp) hzero
  | add | call | ret => exact recordConsistent_of_noFault hnone (by simp [hrun]) hzero

end

/-- Settles O37, item by item of R23, over the eight events of a step. -/
theorem everyStepKeepsTheReachableStateInvariant : Obligations.EveryStepKeepsTheReachableStateInvariant := by
  rintro s t ⟨hpc, hstack, hrec, hmem⟩ h
  obtain ⟨hrun, harm⟩ := (step_eq_next_iff s t).1 h
  exact ⟨harm.keeps_pcInRange hpc hstack, harm.keeps_stackEntriesLegal hstack,
    harm.keeps_recordConsistent hrun hrec, harm.mem_eq ▸ hmem⟩

/-- Settles O39: in the reset state everything is zero and nothing is recorded. -/
theorem resetStateMeetsTheInvariant : Obligations.ResetStateMeetsTheInvariant := by
  refine ⟨by decide, fun i => ?_, recordConsistent_of_noFault rfl (by simp) rfl, reset_mem_wf⟩
  simp [stackEntry, IsEven]

/-- The loader writes only memory, whose canonical form it keeps, and registers, of which the invariant says nothing. -/
theorem loaderWrite_keeps_inv (s : State) (w : LoaderWrite) (h : Inv s) : Inv (loaderWrite s w) := by
  obtain ⟨hpc, -, hstack, hrun, hcause, hword⟩ := loaderWrite_fixed s w
  obtain ⟨ipc, istack, irec, imem⟩ := h
  simp only [Inv, PcInRange, StackEntriesLegal, RecordConsistent, stackEntry, hpc, hstack, hrun, hcause, hword]
  exact ⟨ipc, istack, irec, loaderWrite_wf s w imem⟩

/-- Settles O38, by induction on the loader's writes. -/
theorem everyLaunchStateMeetsTheInvariant : Obligations.EveryLaunchStateMeetsTheInvariant := by
  intro ws
  induction ws using List.reverseRecOn with
  | nil => exact resetStateMeetsTheInvariant
  | append_singleton ws w ih => rw [launch_append]; exact loaderWrite_keeps_inv _ w ih

/-- The invariant holds in every state of a run from a launch state. -/
theorem inv_of_reaches_launch {ws : List LoaderWrite} {n : Nat} {t : State} (h : Reaches n (launch ws) t) : Inv t :=
  reaches_keeps everyStepKeepsTheReachableStateInvariant (everyLaunchStateMeetsTheInvariant ws) h

/-- The code of a recorded fault is 1 to 4 (R18, R71). -/
theorem causeCode_some_bounds (k : FaultKind) : 1 ≤ (causeCode (some k)).toNat ∧ (causeCode (some k)).toNat ≤ 4 := by
  cases k <;> decide

/-- Settles O41: the status outputs show the fault record, which the invariant makes agree with `run_state`. -/
theorem faultRecordIsZeroUntilAFault : Obligations.FaultRecordIsZeroUntilAFault := by
  intro ws n t h
  obtain ⟨-, -, ⟨hcause, hword⟩, -⟩ := inv_of_reaches_launch h
  constructor
  · intro hrun
    have hnone : t.faultCause = none := not_not.1 (mt hcause.1 hrun)
    exact ⟨by rw [statusPorts, hnone]; rfl, hword (.inl hnone)⟩
  · intro hrun
    obtain ⟨k, hk⟩ := Option.ne_none_iff_exists'.1 (hcause.2 hrun)
    rw [statusPorts, hk]
    exact causeCode_some_bounds k

/-! ## Reset (R22) -/

/-- Settles O1, item by item of R22's table. -/
theorem resetZeroesEveryPieceOfState : Obligations.ResetZeroesEveryPieceOfState := by
  intro s
  have hregs : ∀ i, readReg State.reset i = 0x00#8 := fun i => by simp [readReg]
  have hentries : ∀ i, stackEntry State.reset i = 0x0000#16 := fun i => by simp [stackEntry]
  have hword : decode (wordAtPc State.reset) = .ok .halt := by decide
  exact ⟨rfl, hregs, rfl, byteAt_nil, hentries, rfl, rfl, rfl, rfl, rfl, rfl, hword⟩

/-! ## The program counter (R12, R13) -/

/-- Settles O22: of the eight events, the one the step takes is told by the fetch, the decoded word and `sp`. -/
theorem pcAfterEachEvent : Obligations.PcAfterEachEvent := by
  intro s hrun
  obtain ⟨t, harm⟩ := exists_stepArm s
  refine ⟨t, harm.step_eq hrun, ?_, ?_, fun w => (loaderWrite_fixed s w).1⟩
  · intro hfails
    cases harm with
    | fetchFault => rfl
    | unimplemented hfetch | halt hfetch | add _ _ hfetch | call _ _ hfetch | callFull _ hfetch | ret _ hfetch
    | retEmpty hfetch => exact absurd hfails (not_fetchFails_of_legal hfetch)
  · intro hlegal
    simp only [matchesNoRow_iff]
    cases harm with
    | fetchFault hfails => exact absurd hfails (not_fetchFails_of_legal hlegal)
    | unimplemented _ hdec | halt _ hdec | add _ _ _ hdec => simp [hdec]
    | call addr k _ hdec hsp => simp [hdec, hsp, k.isLt.ne]
    | callFull _ _ hdec hsp => simp [hdec, hsp]
    | ret k _ hdec hsp => simp +contextual [hdec, hsp, ← Fin.ext_iff]
    | retEmpty _ hdec hsp => simp [hdec, hsp]

/-- Settles O40: after a legal fetch `pc` is even, and so is a legal entry a RETURN takes; what is left is the fetch
fault, which leaves `pc`, and the jump of a CALL. -/
theorem oddPcComesOnlyFromACallToAnOddAddress : Obligations.OddPcComesOnlyFromACallToAnOddAddress := by
  intro s t hstack h hodd
  obtain ⟨-, harm⟩ := (step_eq_next_iff s t).1 h
  cases harm with
  | fetchFault => exact .inl ⟨hodd, rfl, rfl⟩
  | call addr k _ hdec =>
    exact .inr ⟨addr, (encode_of_decode hdec).symm, by simpa [BitVec.getLsbD_setWidth] using hodd, rfl⟩
  | ret k => exact absurd hodd (Bool.eq_false_iff.1 (hstack k).1)
  | unimplemented hfetch | halt hfetch | add _ _ hfetch | callFull _ hfetch | retEmpty hfetch =>
    exact absurd hodd (Bool.eq_false_iff.1 (nextPc_legal hfetch).1)

/-! ## The run state (R17) -/

/-- No handler reads `run_state` (R17): from any other, the effect on everything else is the same. -/
theorem exec_runState_irrelevant (i : Instr) (s t : State) (r : RunState) (h : exec i s = .next t) :
    ∃ u, exec i { s with runState := r } = .next u ∧ { u with runState := t.runState } = t := by
  cases i with
  | halt => cases h; exact ⟨_, exec_halt _, rfl⟩
  | add x y => cases h; exact ⟨_, exec_add x y _, rfl⟩
  | call addr =>
    rcases Nat.lt_or_ge s.sp.val 16 with hsp | hsp
    · rw [exec_call_of_lt addr s hsp] at h
      cases h
      exact ⟨_, exec_call_of_lt addr { s with runState := r } hsp, rfl⟩
    · have hfull : s.sp.val = 16 := by omega
      rw [exec_call_of_full addr s hfull] at h
      cases h
      exact ⟨_, exec_call_of_full addr _ hfull, rfl⟩
  | ret =>
    rcases Nat.eq_zero_or_pos s.sp.val with hsp | hsp
    · rw [exec_ret_of_empty s hsp] at h
      cases h
      exact ⟨_, exec_ret_of_empty _ hsp, rfl⟩
    · rw [exec_ret_of_pos s hsp] at h
      cases h
      exact ⟨_, exec_ret_of_pos { s with runState := r } hsp, rfl⟩

section
variable {s t : State}

/-- A step enters HALTED exactly at the word of HALT (R17, R56). -/
theorem StepArm.halted_iff (harm : StepArm s t) (hrun : s.runState = .running) :
    t.runState = .halted ↔ FetchLegal s ∧ wordAtPc s = 0x0000#16 := by
  rw [haltWord_iff]
  cases harm with
  | fetchFault hfails => exact ⟨nofun, fun h => absurd hfails (not_fetchFails_of_legal h.1)⟩
  | halt hfetch hdec => exact ⟨fun _ => ⟨hfetch, hdec⟩, fun _ => rfl⟩
  | unimplemented _ hdec | callFull _ _ hdec | retEmpty _ hdec | add _ _ _ hdec | call _ _ _ hdec
  | ret _ _ hdec => simp [hdec, hrun]

/-- A step enters FAULTED exactly at one of the four fault conditions (R17, R71). -/
theorem StepArm.faulted_iff (harm : StepArm s t) (hrun : s.runState = .running) :
    t.runState = .faulted ↔ FetchFails s ∨ MatchesNoRow (wordAtPc s) ∨
      (wordAtPc s &&& 0xF000#16 = 0x2000#16 ∧ s.sp.val = 16) ∨ (wordAtPc s = 0x00EE#16 ∧ s.sp.val = 0) := by
  simp only [matchesNoRow_iff, callRow_iff, retWord_iff]
  cases harm with
  | fetchFault hfails => exact ⟨fun _ => .inl hfails, fun _ => rfl⟩
  | unimplemented _ hdec => simp [hdec]
  | callFull _ _ hdec hsp | retEmpty _ hdec hsp => simp [hdec, hsp]
  | halt hfetch hdec | add _ _ hfetch hdec => simp [hdec, hrun, not_fetchFails_of_legal hfetch]
  | call _ k hfetch hdec hsp => simp [hdec, hrun, not_fetchFails_of_legal hfetch, hsp, k.isLt.ne]
  | ret k hfetch hdec hsp => simp [hdec, hrun, not_fetchFails_of_legal hfetch, hsp]

end

/-- Settles O28, by the event of the step and, for the handlers, by the instruction. -/
theorem runStateChangesOnlyAtHaltOrFault : Obligations.RunStateChangesOnlyAtHaltOrFault := by
  refine ⟨⟨rfl, rfl, rfl⟩, fun s t h => ?_, exec_runState_irrelevant, fun _ => rfl⟩
  obtain ⟨hrun, harm⟩ := (step_eq_next_iff s t).1 h
  exact ⟨hrun, harm.halted_iff hrun, harm.faulted_iff hrun⟩

/-! ## The call stack (R15, R16) -/

/-- A CALL on each side of the bound of `sp` (R58). -/
theorem call_moves_sp (s : State) (hrun : s.runState = .running) (hfetch : FetchLegal s)
    (hcall : wordAtPc s &&& 0xF000#16 = 0x2000#16) :
    ∃ t, step s = .next t ∧
      (s.sp.val < 16 → t.runState = .running ∧ t.sp.val = s.sp.val + 1) ∧
      (s.sp.val = 16 → t.faultCause = some .stackOverflow ∧ t.sp = s.sp) := by
  obtain ⟨addr, hdec⟩ := (callRow_iff _).1 hcall
  rcases Nat.lt_or_ge s.sp.val 16 with hsp | hsp
  · have harm := StepArm.call addr ⟨s.sp.val, hsp⟩ hfetch hdec rfl
    exact ⟨_, harm.step_eq hrun, fun _ => ⟨hrun, rfl⟩, fun h => absurd h hsp.ne⟩
  · have harm := StepArm.callFull addr hfetch hdec (by omega)
    exact ⟨_, harm.step_eq hrun, fun h => absurd h (by omega), fun _ => ⟨rfl, rfl⟩⟩

/-- A RETURN on each side of the bound of `sp` (R59). -/
theorem ret_moves_sp (s : State) (hrun : s.runState = .running) (hfetch : FetchLegal s)
    (hret : wordAtPc s = 0x00EE#16) :
    ∃ t, step s = .next t ∧
      (0 < s.sp.val → t.runState = .running ∧ t.sp.val + 1 = s.sp.val) ∧
      (s.sp.val = 0 → t.faultCause = some .stackUnderflow ∧ t.sp = s.sp) := by
  have hdec := (retWord_iff _).1 hret
  rcases Nat.eq_zero_or_pos s.sp.val with hsp | hsp
  · have harm := StepArm.retEmpty hfetch hdec hsp
    exact ⟨_, harm.step_eq hrun, fun h => absurd hsp h.ne', fun _ => ⟨rfl, rfl⟩⟩
  · have hk : s.sp.val - 1 + 1 = s.sp.val := Nat.sub_add_cancel hsp
    have harm := StepArm.ret ⟨s.sp.val - 1, by omega⟩ hfetch hdec hk.symm
    exact ⟨_, harm.step_eq hrun, fun _ => ⟨hrun, hk⟩, fun h => absurd h hsp.ne'⟩

/-- A step that changes `sp` pushed or popped (R16). -/
theorem StepArm.of_sp_ne {s t : State} (harm : StepArm s t) (hne : t.sp ≠ s.sp) :
    FetchLegal s ∧ (wordAtPc s &&& 0xF000#16 = 0x2000#16 ∧ s.sp.val < 16 ∨
      wordAtPc s = 0x00EE#16 ∧ 0 < s.sp.val) := by
  cases harm with
  | call addr k hfetch hdec hsp => exact ⟨hfetch, .inl ⟨(callRow_iff _).2 ⟨addr, hdec⟩, hsp ▸ k.isLt⟩⟩
  | ret k hfetch hdec hsp => exact ⟨hfetch, .inr ⟨(retWord_iff _).2 hdec, by omega⟩⟩
  | _ => exact absurd rfl hne

/-- Settles O31, from the CALL and the RETURN on each side of their bounds and the events that move `sp`. -/
theorem onlyCallAndReturnMoveTheStackPointer : Obligations.OnlyCallAndReturnMoveTheStackPointer := by
  refine ⟨call_moves_sp, ret_moves_sp, fun s t h => ?_, fun s => Nat.le_of_lt_succ s.sp.isLt,
    fun s w => (loaderWrite_fixed s w).2.1⟩
  exact ((step_eq_next_iff s t).1 h).2.of_sp_ne

/-- Settles O32: the one event that writes the stack is a CALL that does not fault. -/
theorem onlyCallWritesAStackEntry : Obligations.OnlyCallWritesAStackEntry := by
  intro s t i h hne
  obtain ⟨-, harm⟩ := (step_eq_next_iff s t).1 h
  cases harm with
  | call addr k hfetch hdec hsp =>
    rw [stackEntry_set] at hne ⊢
    obtain rfl : k = i := by by_contra hki; exact hne (if_neg hki)
    exact ⟨hfetch, (callRow_iff _).2 ⟨addr, hdec⟩, hsp ▸ k.isLt, hsp.symm, if_pos rfl⟩
  | _ => exact absurd rfl hne

/-! ## The registers and the flag (R10, R11) -/

/-- Settles O33: the one event that writes registers is an ADD. -/
theorem onlyAddWritesARegister : Obligations.OnlyAddWritesARegister := by
  intro s t i h hne
  obtain ⟨-, harm⟩ := (step_eq_next_iff s t).1 h
  cases harm with
  | add x y hfetch hdec =>
    refine ⟨hfetch, x, y, hdec, ?_⟩
    by_contra hi
    obtain ⟨hx, hflag⟩ := not_or.1 hi
    rw [readReg_writeReg, if_neg (Ne.symm hflag), readReg_writeReg, if_neg (Ne.symm hx), readReg_advancePc] at hne
    exact hne rfl
  | _ => exact absurd rfl hne

/-- Other registers select the same event, and its result differs in the registers alone. -/
theorem StepArm.with_V {s t : State} (harm : StepArm s t) (V : Vector Byte 16) :
    ∃ u, StepArm { s with V := V } u ∧ { u with V := t.V } = t := by
  cases harm with
  | fetchFault hfetch => exact ⟨_, .fetchFault hfetch, rfl⟩
  | unimplemented hfetch hdec => exact ⟨_, .unimplemented hfetch hdec, rfl⟩
  | halt hfetch hdec => exact ⟨_, .halt hfetch hdec, rfl⟩
  | add x y hfetch hdec => exact ⟨_, .add x y hfetch hdec, rfl⟩
  | call addr k hfetch hdec hsp => exact ⟨_, .call (s := { s with V := V }) addr k hfetch hdec hsp, rfl⟩
  | callFull addr hfetch hdec hsp => exact ⟨_, .callFull addr hfetch hdec hsp, rfl⟩
  | ret k hfetch hdec hsp => exact ⟨_, .ret k hfetch hdec hsp, rfl⟩
  | retEmpty hfetch hdec hsp => exact ⟨_, .retEmpty hfetch hdec hsp, rfl⟩

/-- Settles O34: no condition of an event names a register. -/
theorem nothingElseDependsOnTheRegisters : Obligations.NothingElseDependsOnTheRegisters := by
  intro s t V h
  obtain ⟨hrun, harm⟩ := (step_eq_next_iff s t).1 h
  obtain ⟨u, harm', heq⟩ := harm.with_V V
  exact ⟨u, harm'.step_eq hrun, heq⟩

/-- The carry written to `VF` is 0 or 1 (R11). -/
theorem flagIsBit_writeReg_carryFlag (s : State) (a b : Byte) : FlagIsBit (writeReg s 15 (carryFlag a b)) := by
  rw [FlagIsBit, readReg_writeReg, if_pos rfl, carryFlag]
  split
  · exact .inr rfl
  · exact .inl rfl

/-- An ADD writes a carry to `VF`; no other event writes a register. -/
theorem step_keeps_flagIsBit (s t : State) (hflag : FlagIsBit s) (h : step s = .next t) : FlagIsBit t := by
  obtain ⟨-, harm⟩ := (step_eq_next_iff s t).1 h
  cases harm with
  | add => exact flagIsBit_writeReg_carryFlag _ _ _
  | _ => exact hflag

/-- Settles O35: ADD establishes the bit, and every step of the run after it keeps it. -/
theorem flagIsZeroOrOneFromAnyAddOn : Obligations.FlagIsZeroOrOneFromAnyAddOn := by
  intro x y s
  have hflag := flagIsBit_writeReg_carryFlag
    (writeReg s x (sumLow (readReg s x) (readReg s y))) (readReg s x) (readReg s y)
  exact ⟨_, exec_add x y s, hflag, fun n u h => reaches_keeps step_keeps_flagIsBit hflag h⟩

end Sys2Proof.Machine
end

section
/-! Memory and the fetch (20_memory.md): when a step takes the fetch fault, that no step of a run changes memory, and
that the canonical form holds one list for each content of memory. -/

namespace Sys2Proof.Machine

/-! ## The fetch fault (R30) -/

/-- What a fault writes, and what it leaves (R74). -/
theorem faultTaken_raiseFault (k : FaultKind) (info : Option Word) (s : State) :
    FaultTaken k (info.getD s.faultWord) s (raiseFault k info s) :=
  ⟨rfl, rfl, rfl, rfl, readReg_raiseFault s k info, readByte_raiseFault s k info, fun _ => rfl⟩

/-- Where no fault is recorded before the step, the fetch fault is recorded by its own event and by no other. -/
theorem StepArm.fetchFault_iff {s t : State} (harm : StepArm s t) (hcause : s.faultCause = none) :
    t.faultCause = some .fetchFault ↔ FetchFails s := by
  cases harm with
  | fetchFault hfails => exact ⟨fun _ => hfails, fun _ => rfl⟩
  | unimplemented hfetch | callFull _ hfetch | retEmpty hfetch => simp [not_fetchFails_of_legal hfetch]
  | halt hfetch | add _ _ hfetch | call _ _ hfetch | ret _ hfetch => simp [hcause, not_fetchFails_of_legal hfetch]

/-- Where the fetch fails, the step raises the fetch fault and does nothing else. -/
theorem StepArm.eq_of_fails {s t : State} (harm : StepArm s t) (hfails : FetchFails s) :
    t = raiseFault .fetchFault none s := by
  cases harm with
  | fetchFault => rfl
  | unimplemented hfetch | halt hfetch | add _ _ hfetch | call _ _ hfetch | callFull _ hfetch | ret _ hfetch
  | retEmpty hfetch => exact absurd hfails (not_fetchFails_of_legal hfetch)

/-- Settles O21: of the eight events the fetch fault alone records that cause, and it changes nothing but the record. -/
theorem fetchFaultsExactlyAtOddOrOutOfRangePc : Obligations.FetchFaultsExactlyAtOddOrOutOfRangePc := by
  intro s hrun hcause
  obtain ⟨t, harm⟩ := exists_stepArm s
  refine ⟨t, harm.step_eq hrun, harm.fetchFault_iff hcause, fun hfails => ?_⟩
  obtain rfl := harm.eq_of_fails hfails
  exact ⟨faultTaken_raiseFault .fetchFault none s, rfl⟩

/-! ## Memory along a run (R34) -/

/-- No step of a run changes memory (R32). -/
theorem mem_eq_of_reaches {n : Nat} {s t : State} (h : Reaches n s t) : t.mem = s.mem := by
  refine reaches_keeps (P := fun u => u.mem = s.mem) (fun u v hu hstep => ?_) rfl h
  obtain ⟨-, harm⟩ := (step_eq_next_iff u v).1 hstep
  exact harm.mem_eq.trans hu

/-- States with the same memory read the same bytes. -/
theorem sameBytes_of_mem_eq {s t : State} (h : t.mem = s.mem) : SameBytes s t :=
  fun a => congrArg (·.byteAt a) h

/-- A fetch that answers a word answers the one at `pc` (R49). -/
theorem eq_wordAtPc_of_fetchWord {s : State} {w : Word} (h : fetchWord s = some w) : w = wordAtPc s := by
  cases hok : fetchOk s.pc with
  | false => rw [fetchWord_of_not_ok s hok] at h; cases h
  | true => rw [fetchWord_of_ok s hok] at h; exact (Option.some.inj h).symm

/-- Settles O36: memory stays the launch state's, so the two bytes at `pc` are the launch memory's. -/
theorem everyFetchReadsTheLaunchMemory : Obligations.EveryFetchReadsTheLaunchMemory := by
  intro ws n t h
  have hmem := mem_eq_of_reaches h
  have hbytes := sameBytes_of_mem_eq hmem
  refine ⟨hbytes, hmem, fun w hw => ?_⟩
  rw [eq_wordAtPc_of_fetchWord hw, wordAtPc, hbytes, hbytes]

/-! ## The canonical form (R14, R25) -/

theorem byteAt_cons_self (k : Nat) (c : Byte) (m : Memory) : Memory.byteAt ((k, c) :: m) k = c := if_pos rfl

/-- The bytes of a canonical memory without its first entry. -/
theorem byteAt_tail {k : Nat} (c : Byte) {m : Memory} (h : Memory.wfFrom (k + 1) m = true) (a : Nat) :
    m.byteAt a = if k = a then unlistedByte else Memory.byteAt ((k, c) :: m) a := by
  split
  · next hka => exact byteAt_below m h (by omega)
  · next hka => exact (if_neg hka).symm

/-- A canonical memory that reads like one whose first entry is `(k, c)` lists no address below `k`. -/
theorem head_le_of_byteAt_eq {lo lo' k k' : Nat} {c c' : Byte} {m m' : Memory}
    (h : Memory.wfFrom lo ((k, c) :: m) = true) (h' : Memory.wfFrom lo' ((k', c') :: m') = true)
    (heq : ∀ a < 4096, Memory.byteAt ((k, c) :: m) a = Memory.byteAt ((k', c') :: m') a) : k ≤ k' := by
  obtain ⟨-, hrest⟩ := (wfFrom_cons ..).1 h
  obtain ⟨-, hk', hc', -⟩ := (wfFrom_cons ..).1 h'
  by_contra hlt
  have hbelow := byteAt_below _ ((wfFrom_cons k k c m).2 ⟨Nat.le_refl k, hrest⟩) (Nat.lt_of_not_le hlt)
  rw [heq k' hk', byteAt_cons_self] at hbelow
  exact hc' hbelow

/-- A canonical memory with an entry does not read like the empty one. -/
theorem exists_byteAt_ne_nil {lo k : Nat} {c : Byte} {m : Memory} (h : Memory.wfFrom lo ((k, c) :: m) = true) :
    ∃ a < 4096, Memory.byteAt ((k, c) :: m) a ≠ Memory.byteAt [] a := by
  obtain ⟨-, hk, hc, -⟩ := (wfFrom_cons ..).1 h
  exact ⟨k, hk, by rwa [byteAt_cons_self, byteAt_nil]⟩

/-- Memories canonical from any two starts are determined by their 4096 bytes: neither lists an address below the
other's first, so the first entries are the same, and so are the bytes without them. -/
theorem eq_of_byteAt_eq {lo lo' : Nat} {m m' : Memory} (h : Memory.wfFrom lo m = true)
    (h' : Memory.wfFrom lo' m' = true) (heq : ∀ a < 4096, m.byteAt a = m'.byteAt a) : m = m' := by
  induction m generalizing lo lo' m' with
  | nil =>
    cases m' with
    | nil => rfl
    | cons e' m' =>
      obtain ⟨a, ha, hne⟩ := exists_byteAt_ne_nil h'
      exact absurd (heq a ha).symm hne
  | cons e m ih =>
    obtain ⟨k, c⟩ := e
    cases m' with
    | nil =>
      obtain ⟨a, ha, hne⟩ := exists_byteAt_ne_nil h
      exact absurd (heq a ha) hne
    | cons e' m' =>
      obtain ⟨k', c'⟩ := e'
      obtain rfl : k = k' :=
        Nat.le_antisymm (head_le_of_byteAt_eq h h' heq) (head_le_of_byteAt_eq h' h fun a ha => (heq a ha).symm)
      obtain ⟨-, hk, -, hm⟩ := (wfFrom_cons ..).1 h
      obtain ⟨-, -, -, hm'⟩ := (wfFrom_cons ..).1 h'
      obtain rfl : c = c' := by simpa only [byteAt_cons_self] using heq k hk
      have htail : ∀ a < 4096, Memory.byteAt m a = Memory.byteAt m' a := fun a ha => by
        rw [byteAt_tail c hm, byteAt_tail c hm', heq a ha]
      rw [ih hm hm' htail]

/-- Settles O42: an address below 4096 is one of the 12-bit addresses. -/
theorem canonicalMemoriesWithEqualBytesAreEqual : Obligations.CanonicalMemoriesWithEqualBytesAreEqual :=
  fun _ _ h h' hbytes => eq_of_byteAt_eq h h' fun a ha => by
    simpa [Nat.mod_eq_of_lt ha] using hbytes (BitVec.ofNat 12 a)

end Sys2Proof.Machine
end

section
/-! The encoding (30_encoding.md): decoder and encoder are inverse to each other (R43), the decoder follows the mask and
match rows, the words that are an instruction are counted row by row (R45), and R47's lines and R40's fields are
computed. -/

namespace Sys2Proof.Machine

/-! ## Decode of encode (R39, R43) -/

/-- The word of a CALL is of class 2, and its address field is the operand (R41). -/
theorem decode_encode_call (addr : Addr) : decode (encode (.call addr)) = .ok (.call addr) := by
  have hword := Laws.encode_call_toNat addr
  have haddr := addr.isLt
  rw [Laws.decode_eq, if_neg (by omega), if_neg (by omega), if_pos (by omega)]
  exact congrArg (Except.ok ∘ Instr.call) (splitFields_encode_call_addr addr)

/-- The word of an ADD is of class 8 with sub-selector 4, and its register fields select the operands (R41). -/
theorem decode_encode_add (x y : RegIndex) : decode (encode (.add x y)) = .ok (.add x y) := by
  have hword := Laws.encode_add_toNat x y
  rw [Laws.decode_eq, if_neg (by omega), if_neg (by omega), if_neg (by omega), if_pos (by omega)]
  exact congrArg₂ (fun i j => Except.ok (Instr.add i j)) (regOfNibble_encode_add_x x y) (regOfNibble_encode_add_y x y)

/-- The decoder reads every instruction back from its word. -/
theorem decode_encode (i : Instr) : decode (encode i) = .ok i := by
  cases i with
  | halt => exact (haltWord_iff _).1 rfl
  | ret => exact (retWord_iff _).1 rfl
  | call addr => exact decode_encode_call addr
  | add x y => exact decode_encode_add x y

/-- A word that decodes gives the same instruction from its two bytes, with the bytes after them (R39). -/
theorem decodeBytes_of_decode {w : Word} {i : Instr} (h : decode w = .ok i) (rest : List Byte) :
    decodeBytes (highByte w :: lowByte w :: rest) = .ok (i, rest) := by
  rw [decodeBytes, Laws.wordOfBytes_bytes, h]

/-- Settles O8, by the instruction. -/
theorem decodeOfEncodeIsTheInstruction : Obligations.DecodeOfEncodeIsTheInstruction :=
  fun i rest => ⟨decode_encode i, decodeBytes_of_decode (decode_encode i) rest⟩

/-- Settles O9, by the instruction the word decodes to. -/
theorem encodeOfDecodeIsTheWord : Obligations.EncodeOfDecodeIsTheWord :=
  fun _ _ h => encode_of_decode h

/-! ## The rows of R43 -/

/-- A word of the CALL row decodes to the CALL of its address field. -/
theorem decode_of_callRow {w : Word} (h : w &&& 0xF000#16 = 0x2000#16) :
    decode w = .ok (.call (w.extractLsb' 0 12)) := by
  obtain ⟨addr, hdec⟩ := (callRow_iff w).1 h
  obtain rfl := encode_of_decode hdec
  exact hdec.trans (congrArg (Except.ok ∘ Instr.call) (splitFields_encode_call_addr addr).symm)

/-- The ADD row fixes the class and the sub-selector of a word. -/
theorem addRow_nibbles {w : Word} (h : w &&& 0xF00F#16 = 0x8004#16) :
    (splitFields w).cls = 0x8#4 ∧ (splitFields w).d = 0x4#4 := by
  have hnibbles := (and_eq_iff_nibbles w ⟨0xF, 0x0, 0x0, 0xF, 0⟩ ⟨0x8, 0x0, 0x0, 0x4, 0⟩).1 h
  simpa only [BitVec.ofNat_eq_ofNat, nibble_and_ones, BitVec.and_zero, true_and] using hnibbles

/-- A word of the ADD row decodes to the ADD of its register fields. -/
theorem decode_of_addRow {w : Word} (h : w &&& 0xF00F#16 = 0x8004#16) :
    decode w = .ok (.add (w.extractLsb' 8 4).toFin (w.extractLsb' 4 4).toFin) := by
  obtain ⟨hcls, hd⟩ := addRow_nibbles h
  have hclass : w.toNat / 4096 = 8 := by rw [← Laws.splitFields_cls_toNat, hcls]; rfl
  have hsub : w.toNat % 16 = 4 := by rw [← Laws.splitFields_d_toNat, hd]; rfl
  rw [Laws.decode_eq, if_neg (by omega), if_neg (by omega), if_neg (by omega), if_pos ⟨hclass, hsub⟩]

/-- Settles O6, row by row; the words of no row are the ones the decoder rejects. -/
theorem decoderFollowsTheMaskAndMatchTable : Obligations.DecoderFollowsTheMaskAndMatchTable := by
  intro w
  rw [word_and_ones]
  exact ⟨(haltWord_iff w).1, (retWord_iff w).1, decode_of_callRow, decode_of_addRow, (matchesNoRow_iff w).1⟩

/-! ## How many words are an instruction (R45) -/

/-- The words of the ADD row as numbers: every sixteenth word of class 8, from 0x8004. -/
def addWords : Finset ℕ := (Finset.range 256).image (0x8004 + 16 * ·)

theorem mem_addWords (n : ℕ) : n ∈ addWords ↔ n / 4096 = 8 ∧ n % 16 = 4 := by
  rw [addWords, Finset.mem_image]
  constructor
  · rintro ⟨k, hk, rfl⟩
    rw [Finset.mem_range] at hk
    omega
  · exact fun h => ⟨n / 16 % 256, Finset.mem_range.2 (by omega), by omega⟩

theorem card_addWords : addWords.card = 256 :=
  (Finset.card_image_of_injective _ fun a b (h : 0x8004 + 16 * a = 0x8004 + 16 * b) => by omega).trans
    (Finset.card_range 256)

/-- The words of R43's four rows as numbers: HALT, RETURN, the block of CALL, and ADD. -/
def instructionWords : Finset ℕ := {0x0000, 0x00EE} ∪ (Finset.Ico 0x2000 0x3000 ∪ addWords)

theorem mem_instructionWords (n : ℕ) : n ∈ instructionWords ↔
    n = 0 ∨ n = 0xEE ∨ n / 4096 = 2 ∨ n / 4096 = 8 ∧ n % 16 = 4 := by
  rw [instructionWords, Finset.mem_union, Finset.mem_union, mem_addWords, Finset.mem_insert, Finset.mem_singleton,
    Finset.mem_Ico]
  omega

/-- One HALT, one RETURN, 4096 CALLs and 256 ADDs: the rows share no word. -/
theorem card_instructionWords : instructionWords.card = 4354 := by
  have hcall : Disjoint (Finset.Ico 0x2000 0x3000) addWords := by
    simp only [Finset.disjoint_left, Finset.mem_Ico, mem_addWords]
    omega
  have hfixed : Disjoint {0x0000, 0x00EE} (Finset.Ico 0x2000 0x3000 ∪ addWords) := by
    simp only [Finset.disjoint_left, Finset.mem_insert, Finset.mem_singleton, Finset.mem_union, Finset.mem_Ico,
      mem_addWords]
    omega
  rw [instructionWords, Finset.card_union_of_disjoint hfixed, Finset.card_union_of_disjoint hcall, Nat.card_Ico,
    card_addWords, Finset.card_pair (by decide)]

/-- The decoder rejects exactly the words that are of no row. -/
theorem decode_unimplemented_iff (w : Word) :
    decode w = .error (.unimplemented w) ↔ w.toNat ∉ instructionWords := by
  rw [mem_instructionWords, Laws.decode_eq]
  split_ifs <;> simp [*]

/-- Settles O7: what is left of the 65536 words without the 4354 of the four rows. -/
theorem unimplementedWordsNumber61182 : Obligations.UnimplementedWordsNumber61182 := by
  have hsub : instructionWords ⊆ Finset.range 65536 := fun n hn => by
    rw [mem_instructionWords] at hn
    rw [Finset.mem_range]
    omega
  have hrejected : (Finset.range 65536).filter (fun n : ℕ =>
      decode (BitVec.ofNat 16 n) = .error (.unimplemented (BitVec.ofNat 16 n))) =
      Finset.range 65536 \ instructionWords := by
    ext n
    rw [Finset.mem_filter, Finset.mem_sdiff]
    refine and_congr_right fun hn => ?_
    rw [decode_unimplemented_iff, BitVec.toNat_ofNat, Nat.mod_eq_of_lt (Finset.mem_range.1 hn)]
  rw [Obligations.UnimplementedWordsNumber61182, hrejected, Finset.card_sdiff_of_subset hsub, card_instructionWords,
    Finset.card_range]

/-! ## Assembler lines (R47) -/

theorem asmCall_of_le {a : ℕ} (h : a ≤ 0xFFF) : asmCall a = some (.call (BitVec.ofNat 12 a)) :=
  if_pos (decide_eq_true h)

theorem asmCall_of_gt {a : ℕ} (h : 0xFFF < a) : asmCall a = none :=
  if_neg fun hok => absurd (of_decide_eq_true hok) (Nat.not_le.2 h)

theorem asmAdd_of_lt {x y : ℕ} (hx : x < 16) (hy : y < 16) : asmAdd x y = some (.add ⟨x, hx⟩ ⟨y, hy⟩) :=
  dif_pos ⟨hx, hy⟩

theorem asmAdd_of_gt {x y : ℕ} (h : 0xF < x ∨ 0xF < y) : asmAdd x y = none :=
  dif_neg (by omega)

/-- The word of an instruction is its first byte times 256 plus its second. -/
theorem encode_toNat_of_bytes (i : Instr) :
    (encode i).toNat = (highByte (encode i)).toNat * 256 + (lowByte (encode i)).toNat := by
  rw [← Laws.wordOfBytes_toNat, Laws.wordOfBytes_bytes]

/-- Settles O10, line by line of R47's table. -/
theorem assemblerLinesGiveTheTablesWords : Obligations.AssemblerLinesGiveTheTablesWords := by
  refine ⟨rfl, rfl, fun a ha => ⟨_, asmCall_of_le ha, ?_⟩, fun _ => asmCall_of_gt,
    fun x y hx hy => ⟨_, asmAdd_of_lt (Nat.lt_succ_of_le hx) (Nat.lt_succ_of_le hy), Laws.encode_add_toNat _ _⟩,
    fun _ _ => asmAdd_of_gt, fun i => ⟨_, _, rfl, encode_toNat_of_bytes i⟩⟩
  rw [Laws.encode_call_toNat, BitVec.toNat_ofNat, Nat.mod_eq_of_lt (Nat.lt_succ_of_le ha)]

/-! ## The fields of a word (R40) -/

/-- Each field of the word of two bytes, by the byte it comes from. -/
theorem splitFields_wordOfBytes (hi lo : Byte) : splitFields (wordOfBytes hi lo) =
    ⟨hi.extractLsb' 4 4, hi.extractLsb' 0 4, lo.extractLsb' 4 4, lo.extractLsb' 0 4, hi.extractLsb' 0 4 ++ lo⟩ := by
  have haddr : (wordOfBytes hi lo).extractLsb' 0 12 = hi.extractLsb' 0 4 ++ lo := by
    apply BitVec.eq_of_toNat_eq
    rw [Laws.field_toNat, Laws.wordOfBytes_toNat, Laws.append_toNat, Laws.field_toNat]
    have := lo.isLt
    omega
  rw [splitFields, haddr, wordOfBytes, BitVec.extractLsb'_append_eq_of_le (by decide),
    BitVec.extractLsb'_append_eq_of_le (by decide), BitVec.extractLsb'_append_eq_of_add_le (by decide),
    BitVec.extractLsb'_append_eq_of_add_le (by decide)]

/-- The masks of R40 keep the low nibble and the low 12 bits of a number. -/
theorem masks_eq_mod (n : ℕ) : n &&& 0xF = n % 16 ∧ n &&& 0xFFF = n % 4096 :=
  ⟨Nat.and_two_pow_sub_one_eq_mod n 4, Nat.and_two_pow_sub_one_eq_mod n 12⟩

/-- Each field of a word, by the rule's shift and mask. -/
theorem splitFields_shift_mask (w : Word) :
    (splitFields w).cls.toNat = w.toNat >>> 12 ∧ (splitFields w).x.toNat = (w.toNat >>> 8) &&& 0xF ∧
    (splitFields w).y.toNat = (w.toNat >>> 4) &&& 0xF ∧ (splitFields w).d.toNat = w.toNat &&& 0xF ∧
    (splitFields w).addr.toNat = w.toNat &&& 0xFFF := by
  simp only [masks_eq_mod, Nat.shiftRight_eq_div_pow]
  exact ⟨Laws.splitFields_cls_toNat w, Laws.splitFields_x_toNat w, Laws.splitFields_y_toNat w,
    Laws.splitFields_d_toNat w, Laws.splitFields_addr_toNat w⟩

/-- Settles O5: by byte, by concatenation, and by shift and mask. -/
theorem fieldsOfAWordAreItsNibbles : Obligations.FieldsOfAWordAreItsNibbles := by
  intro hi lo
  refine ⟨?_, of_decide_eq_true (Laws.splitFields_wellFormed _), splitFields_shift_mask _⟩
  rw [splitFields_wordOfBytes]
  exact ⟨rfl, rfl, rfl, rfl, rfl⟩

/-! ## The listed words (95_test_vectors.md) -/

/-- Settles O11: twelve words of instructions, and three that no row selects. -/
theorem listedWordsDecodeAsListed : Obligations.ListedWordsDecodeAsListed :=
  ⟨decode_encode .halt, decode_encode .ret, decode_encode (.call 0x100), decode_encode (.add 0 1),
    decode_encode (.call 0x000), decode_encode (.call 0xFFF), decode_encode (.call 0x004),
    decode_encode (.call 0x0EE), decode_encode (.add 15 15), decode_encode (.add 10 11), decode_encode (.add 2 0),
    decode_encode (.add 0 0), (matchesNoRow_iff 0x8015#16).1 (by decide), (matchesNoRow_iff 0x01EE#16).1 (by decide),
    (matchesNoRow_iff 0x0004#16).1 (by decide)⟩

end Sys2Proof.Machine
end

section
/-! The step (40_step_fetch_decode_dispatch.md): the fetch and the dispatch, where a step is defined (R48, R54), the one
block of R53, and that every run ends (R55). -/

namespace Sys2Proof.Machine

/-! ## The fetch (R49) -/

/-- The word at `pc` as a number: the byte at `pc` is the more significant (R28). -/
theorem wordAtPc_toNat (s : State) :
    (wordAtPc s).toNat = (readByte s s.pc.toNat).toNat * 256 + (readByte s (s.pc.toNat + 1)).toNat :=
  Laws.wordOfBytes_toNat _ _

/-- Settles O20, by the two sides of the fetch test. -/
theorem fetchReadsTwoBytesAndAdvancesPc : Obligations.FetchReadsTwoBytesAndAdvancesPc := by
  intro s hrun
  constructor
  · intro hlegal
    have hok := fetchOk_of_legal hlegal
    exact ⟨wordAtPc s, fetchWord_of_ok s hok, wordAtPc_toNat s, step_dispatch s hrun hok, advancePc_toNat s hok⟩
  · intro hfails
    exact ⟨fetchWord_of_not_ok s (fetchOk_of_fails hfails), (StepArm.fetchFault hfails).step_eq hrun⟩

/-! ## The dispatch (R51, R52) -/

/-- Settles O19: the two bytes at `pc` are the word that is dispatched. -/
theorem stepRunsTheDecodedInstruction : Obligations.StepRunsTheDecodedInstruction :=
  fun _ _ hrun hlegal _ hdec => step_of_decode hrun hlegal hdec

/-- Settles O24, by the event of a word that no row selects. -/
theorem unimplementedWordFaultsCarryingTheWord : Obligations.UnimplementedWordFaultsCarryingTheWord := by
  intro s hrun hlegal hrow
  have harm := StepArm.unimplemented hlegal ((matchesNoRow_iff _).1 hrow)
  exact ⟨_, harm.step_eq hrun, faultTaken_raiseFault .unimplementedOpcode (some (wordAtPc s)) (advancePc s), rfl, rfl⟩

/-! ## Where a step is defined (R48, R54) -/

theorem exists_step_iff (s : State) : (∃ t, step s = .next t) ↔ s.runState = .running := by
  constructor
  · rintro ⟨t, h⟩
    exact ((step_eq_next_iff s t).1 h).1
  · intro hrun
    obtain ⟨t, harm⟩ := exists_stepArm s
    exact ⟨t, harm.step_eq hrun⟩

theorem step_ne_refused (s : State) (r : Refusal) : step s ≠ .refused r := by
  cases hrun : s.runState with
  | halted => rw [step_of_halted s hrun]; exact nofun
  | faulted => rw [step_of_faulted s hrun]; exact nofun
  | running =>
    obtain ⟨t, h⟩ := (exists_step_iff s).2 hrun
    rw [h]; exact nofun

/-- Settles O30: an event exists for every state, and only a RUNNING machine takes it. -/
theorem aStepIsDefinedExactlyWhenRunning : Obligations.AStepIsDefinedExactlyWhenRunning :=
  fun s => ⟨exists_step_iff s, step_ne_refused s⟩

/-- Settles O29, by the end of the run; reset is RUNNING. -/
theorem noStepIsDefinedAfterTheRunEnded : Obligations.NoStepIsDefinedAfterTheRunEnded :=
  fun s => ⟨step_of_halted s, step_of_faulted s, (exists_step_iff (applyReset s)).2 reset_runState⟩

/-! ## The one block (R53) -/

/-- A word of the block's class 2 is a CALL of its low 12 bits (R50, R58). -/
theorem decode_of_callClass {w : Word} (h : w.toNat / 4096 = 2) :
    ∃ addr : Addr, decode w = .ok (.call addr) ∧ addr.zeroExtend 16 = BitVec.ofNat 16 (w.toNat % 4096) := by
  refine ⟨w.extractLsb' 0 12, ?_, ?_⟩
  · rw [Laws.decode_eq, if_neg (by omega), if_neg (by omega), if_pos h]
  · apply BitVec.eq_of_toNat_eq
    rw [BitVec.toNat_setWidth, Laws.field_toNat, BitVec.toNat_ofNat]
    omega

/-- A word of the block's class 8 with sub-selector 4 is an ADD of the registers its middle nibbles number (R50). -/
theorem decode_of_addClass {w : Word} {x y : RegIndex} (h : w.toNat / 4096 = 8 ∧ w.toNat % 16 = 4)
    (hx : x.val = w.toNat / 256 % 16) (hy : y.val = w.toNat / 16 % 16) : decode w = .ok (.add x y) := by
  have hx' : (w.extractLsb' 8 4).toFin = x := Fin.ext ((Laws.field_toNat w 8 4).trans hx.symm)
  have hy' : (w.extractLsb' 4 4).toFin = y := Fin.ext ((Laws.field_toNat w 4 4).trans hy.symm)
  rw [Laws.decode_eq, if_neg (by omega), if_neg (by omega), if_neg (by omega), if_pos h, hx', hy']

/-- A word that fails the block's four tests is no instruction (R45). -/
theorem decode_of_noClass {w : Word} (hhalt : w ≠ 0x0000#16) (hret : w ≠ 0x00EE#16) (hcall : w.toNat / 4096 ≠ 2)
    (hadd : ¬ (w.toNat / 4096 = 8 ∧ w.toNat % 16 = 4)) : decode w = .error (.unimplemented w) := by
  have hhalt' : w.toNat ≠ 0 := mt (BitVec.eq_of_toNat_eq (y := 0x0000#16)) hhalt
  have hret' : w.toNat ≠ 0xEE := mt (BitVec.eq_of_toNat_eq (y := 0x00EE#16)) hret
  rw [Laws.decode_eq, if_neg hhalt', if_neg hret', if_neg hcall, if_neg hadd]

/-- The register writes of ADD are those of the block (R62). -/
theorem wholeAdd_eq (s : State) (x y : RegIndex) :
    wholeAdd s.V x y =
      (writeReg (writeReg s x (sumLow (readReg s x) (readReg s y))) 15 (carryFlag (readReg s x) (readReg s y))).V := by
  have hlow : BitVec.ofNat 8 (exactSum (readReg s x) (readReg s y) % 256) = sumLow (readReg s x) (readReg s y) :=
    BitVec.eq_of_toNat_eq (by simp [sumLow])
  rw [writeReg_V, writeReg_V, ← hlow]
  rfl

/-- Each branch of the block is the event of a step that its tests select. -/
theorem stepArm_wholeStep (s : State) : StepArm s (wholeStep s) := by
  have hnext : BitVec.ofNat 16 (s.pc.toNat + 2) = s.pc + Config.pcStep := by
    simp [BitVec.ofNat_add, Config.pcStep]
  rw [wholeStep, hnext]
  split
  next hfails =>
    exact .fetchFault (hfails.imp_left fun hodd => by rw [← Bool.not_eq_false, getLsbD_zero_iff]; omega)
  next hok =>
    have hfetch : FetchLegal s := by rw [FetchLegal, getLsbD_zero_iff]; omega
    dsimp only
    split
    next hhalt => exact .halt hfetch ((haltWord_iff _).1 hhalt)
    next hhalt =>
      split
      next hret =>
        have hdec : decode (wordAtPc s) = .ok .ret := (retWord_iff _).1 hret
        split
        next hsp => rw [hret]; exact .retEmpty hfetch hdec hsp
        next hsp =>
          exact .ret ⟨s.sp.val - 1, by omega⟩ hfetch hdec (Nat.sub_add_cancel (Nat.pos_of_ne_zero hsp)).symm
      next hret =>
        split
        next hcall =>
          obtain ⟨addr, hdec, htarget⟩ := decode_of_callClass hcall
          rw [← htarget]
          split
          next hsp => exact .call addr ⟨s.sp.val, hsp⟩ hfetch hdec rfl
          next hsp => rw [← encode_of_decode hdec]; exact .callFull addr hfetch hdec (by omega)
        next hcall =>
          split
          next hadd => rw [wholeAdd_eq]; exact .add _ _ hfetch (decode_of_addClass hadd rfl rfl)
          next hadd => exact .unimplemented hfetch (decode_of_noClass hhalt hret hcall hadd)

/-- Settles O44: the block goes where the event of the step goes. -/
theorem stepIsTheSpecsWholeBlock : Obligations.StepIsTheSpecsWholeBlock :=
  fun s hrun => (stepArm_wholeStep s).step_eq hrun

/-! ## Every run ends (R54, R55)

A run goes on along a chain of addresses: the return addresses on the call stack, then `pc`. A step that does not end
the run moves one of them forward and leaves those below it, or takes the last away. Read from the bottom of the stack
up, the chain therefore only grows, which it cannot do forever. -/

/-- How far the address of call depth `i` is from the end of the 16-bit addresses: a return address below `sp`, `pc` at
`sp`; above `sp`, where there is none, nothing is left. -/
def roomAt (s : State) (i : StackCursor) : ℕ :=
  if h : i.val < s.sp.val then 2 ^ 16 - (stackEntry s ⟨i.val, by omega⟩).toNat
  else if i = s.sp then 2 ^ 16 - s.pc.toNat
  else 0

/-- The room that is left to a run, compared from the bottom of the call stack up. -/
def room (s : State) : Lex (StackCursor → ℕ) := toLex (roomAt s)

theorem roomAt_of_lt {s : State} {i : StackCursor} (k : Fin 16) (hi : i.val = k.val) (h : k.val < s.sp.val) :
    roomAt s i = 2 ^ 16 - (stackEntry s k).toNat := by
  obtain rfl : i = k.castSucc := Fin.ext hi
  exact dif_pos h

theorem roomAt_sp (s : State) : roomAt s s.sp = 2 ^ 16 - s.pc.toNat := by
  rw [roomAt, dif_neg (Nat.lt_irrefl _), if_pos rfl]

theorem roomAt_of_gt {s : State} {i : StackCursor} (h : s.sp < i) : roomAt s i = 0 := by
  rw [roomAt, dif_neg (Nat.not_lt.2 (Nat.le_of_lt h)), if_neg h.ne']

/-- The fetch moves `pc` forward, without a wrap (R49). -/
theorem room_nextPc_lt {s : State} (hfetch : FetchLegal s) :
    2 ^ 16 - (s.pc + Config.pcStep).toNat < 2 ^ 16 - s.pc.toNat := by
  have hnext : (s.pc + Config.pcStep).toNat = s.pc.toNat + 2 := advancePc_toNat s (fetchOk_of_legal hfetch)
  have hle := hfetch.2
  omega

section
variable {s t : State}

/-- The same return address leaves the same room. -/
theorem roomAt_eq_of_lt {i : StackCursor} (hs : i < s.sp) (ht : i < t.sp)
    (hentry : ∀ k : Fin 16, k.val = i.val → stackEntry t k = stackEntry s k) : roomAt t i = roomAt s i := by
  have hi : i.val < 16 := Nat.lt_of_lt_of_le hs (Nat.le_of_lt_succ s.sp.isLt)
  rw [roomAt_of_lt ⟨i.val, hi⟩ rfl hs, roomAt_of_lt ⟨i.val, hi⟩ rfl ht, hentry _ rfl]

/-- Less room at one depth, and as much at every depth below it, is less room. -/
theorem room_lt_of_roomAt_lt (i : StackCursor) (hlt : roomAt t i < roomAt s i)
    (hbelow : ∀ j < i, roomAt t j = roomAt s j) : room t < room s := ⟨i, hbelow, hlt⟩

/-- A step after which the machine still runs leaves less room at the depth it was taken at: ADD moves `pc` forward,
CALL turns it into the return address after it, RETURN takes it away. -/
theorem StepArm.room_lt (harm : StepArm s t) (hrun : t.runState = .running) : room t < room s := by
  refine room_lt_of_roomAt_lt s.sp ?_ fun j hj => ?_
  · rw [roomAt_sp]
    cases harm with
    | fetchFault | unimplemented | halt | callFull | retEmpty => cases hrun
    | add x y hfetch => exact (roomAt_sp _).trans_lt (room_nextPc_lt hfetch)
    | call addr k hfetch _ hsp =>
      rw [roomAt_of_lt k hsp k.val.lt_succ_self, stackEntry_set, if_pos rfl]
      exact room_nextPc_lt hfetch
    | ret k _ _ hsp =>
      rw [roomAt_of_gt (Fin.lt_def.2 (by simp [hsp]))]
      exact Nat.sub_pos_of_lt s.pc.isLt
  · cases harm with
    | fetchFault | unimplemented | halt | callFull | retEmpty => cases hrun
    | add => exact roomAt_eq_of_lt hj hj fun _ _ => rfl
    | call addr k _ _ hsp =>
      have hjk : j.val < k.val := hsp ▸ hj
      refine roomAt_eq_of_lt hj (Nat.lt_succ_of_lt hjk) fun i hi => ?_
      rw [stackEntry_set, if_neg (Fin.ne_of_val_ne (by omega))]
    | ret k _ _ hsp =>
      rcases Nat.lt_or_eq_of_le (Nat.le_of_lt_succ (hsp ▸ hj : j.val < k.val + 1)) with hjk | hjk
      · exact roomAt_eq_of_lt hj hjk fun _ _ => rfl
      · obtain rfl : j = k.castSucc := Fin.ext hjk
        exact (roomAt_sp _).trans (roomAt_of_lt k rfl (by omega)).symm

end

/-- Every run from a RUNNING state ends, by induction on the room that is left to it. -/
theorem exists_reaches_end (s : State) (hrun : s.runState = .running) :
    ∃ n t, Reaches n s t ∧ t.runState ≠ .running := by
  induction hroom : room s using WellFoundedLT.induction generalizing s with
  | ind r ih =>
    subst hroom
    obtain ⟨u, harm⟩ := exists_stepArm s
    have hstep := harm.step_eq hrun
    by_cases hu : u.runState = .running
    · obtain ⟨n, t, hreach, hend⟩ := ih _ (harm.room_lt hu) u hu rfl
      exact ⟨n + 1, t, ⟨u, hstep, hreach⟩, hend⟩
    · exact ⟨1, u, ⟨u, hstep, rfl⟩, hu⟩

/-- A launch state is RUNNING (R85). -/
theorem launch_runState (ws : List LoaderWrite) : (launch ws).runState = .running := by
  induction ws using List.reverseRecOn with
  | nil => rfl
  | append_singleton ws w ih =>
    obtain ⟨-, -, -, hrun, -⟩ := loaderWrite_fixed (launch ws) w
    rw [launch_append, hrun, ih]

/-- With a consistent fault record a state that is not RUNNING is a normal end or a recorded fault (R54, R74). -/
theorem normalEnd_or_faulted {t : State} (hrec : RecordConsistent t) (hend : t.runState ≠ .running) :
    NormalEnd t ∨ (t.runState = .faulted ∧ t.faultCause ≠ none) := by
  obtain ⟨hcause, -⟩ := hrec
  cases hrun : t.runState with
  | running => exact absurd hrun hend
  | halted => exact .inl ⟨hrun, not_not.1 (mt hcause.1 (by simp [hrun]))⟩
  | faulted => exact .inr ⟨rfl, hcause.2 hrun⟩

/-- Settles O46: the room left to a run shrinks with every step, and the record of a run's states is consistent. -/
theorem everyRunIsFinite : Obligations.EveryRunIsFinite := by
  refine ⟨exists_reaches_end, fun ws => ?_⟩
  obtain ⟨n, t, hreach, hend⟩ := exists_reaches_end (launch ws) (launch_runState ws)
  obtain ⟨-, -, hrec, -⟩ := inv_of_reaches_launch hreach
  exact ⟨n, t, hreach, normalEnd_or_faulted hrec hend⟩

end Sys2Proof.Machine
end

section
/-! HALT (41_halt.md R56). -/

namespace Sys2Proof.Machine

/-- What `halt` writes is `run_state`; every other item of the state is left (R8, R56). -/
theorem haltRun_frame (s : State) :
    (haltRun s).runState = .halted ∧ (haltRun s).pc = s.pc ∧ (haltRun s).sp = s.sp ∧
    SameRegisters s (haltRun s) ∧ SameBytes s (haltRun s) ∧ SameStackEntries s (haltRun s) ∧
    (haltRun s).faultCause = s.faultCause ∧ (haltRun s).faultWord = s.faultWord :=
  ⟨haltRun_runState s, haltRun_pc s, haltRun_sp s, readReg_haltRun s, readByte_haltRun s, fun _ => rfl,
    haltRun_faultCause s, haltRun_faultWord s⟩

/-- No state follows a HALTED one (R54). -/
theorem step_ne_next_of_halted {t : State} (h : t.runState = .halted) (u : State) : step t ≠ .next u := by
  rw [step_of_halted t h]
  exact nofun

/-- Settles O12, by the frame of `halt`: for the handler in the state it is given, for the step after the fetch, which
moves `pc` alone. -/
theorem haltStopsTheRunAndChangesNothingElse : Obligations.HaltStopsTheRunAndChangesNothingElse := by
  refine ⟨rfl, fun s => ⟨haltRun s, exec_halt s, haltRun_frame s⟩, fun s hrun hlegal hword => ?_⟩
  have harm := StepArm.halt hlegal ((haltWord_iff _).1 hword)
  obtain ⟨hhalted, hpc, hsp, hregs, hbytes, hentries, hcause, hfword⟩ := haltRun_frame (advancePc s)
  exact ⟨haltRun (advancePc s), harm.step_eq hrun, hhalted, hpc, hsp, hregs, hbytes, hentries, hcause, hfword,
    step_ne_next_of_halted hhalted⟩

end Sys2Proof.Machine
end

section
/-! CALL and RETURN (42_call_return.md): what each handler does on both sides of its bound of `sp`, the two of them one
after the other, and that no other instruction changes the flow of control. A handler is given the state after the
fetch, so a step's facts are the handler's in `advancePc s`. -/

namespace Sys2Proof.Machine

/-! ## The handlers (R58, R59) -/

/-- CALL on a stack that is not full pushes `pc` and jumps (R58). -/
theorem exec_call_pushes (addr : Addr) (s : State) (hsp : s.sp.val < 16) :
    ∃ t, exec (.call addr) s = .next t ∧
      (∀ i : Fin 16, stackEntry t i = if i.val = s.sp.val then s.pc else stackEntry s i) ∧
      t.sp.val = s.sp.val + 1 ∧ t.pc.toNat = addr.toNat ∧
      SameRegisters s t ∧ SameBytes s t ∧ SameRunControl s t := by
  refine ⟨_, exec_call_of_lt addr s hsp, fun i => ?_, rfl, ?_, fun _ => rfl, fun _ => rfl, rfl, rfl, rfl⟩
  · exact (stackEntry_set s ⟨s.sp.val, hsp⟩ i s.pc _ _).trans (if_congr (Fin.ext_iff.trans eq_comm) rfl rfl)
  · exact BitVec.toNat_setWidth_of_le (by decide)

/-- The word of a CALL as R58 writes it. -/
theorem encode_call_eq_add (addr : Addr) : encode (.call addr) = 0x2000#16 + addr.zeroExtend 16 := by
  apply BitVec.eq_of_toNat_eq
  have := addr.isLt
  rw [Laws.encode_call_toNat, BitVec.toNat_add, BitVec.toNat_setWidth, BitVec.toNat_ofNat]
  omega

/-- CALL on a full stack takes StackOverflow with its word (R58). -/
theorem exec_call_overflows (addr : Addr) (s : State) (hsp : s.sp.val = 16) :
    ∃ t, exec (.call addr) s = .next t ∧
      FaultTaken .stackOverflow (0x2000#16 + addr.zeroExtend 16) s t ∧ causeCode t.faultCause = 2#3 ∧
      t.pc = s.pc := by
  rw [← encode_call_eq_add]
  exact ⟨_, exec_call_of_full addr s hsp, faultTaken_raiseFault .stackOverflow (some _) s, rfl, rfl⟩

/-- RETURN on a stack that is not empty takes the newest entry, which stays (R59, D10). -/
theorem exec_ret_pops (s : State) (k : Fin 16) (hsp : s.sp.val = k.val + 1) :
    ∃ t, exec .ret s = .next t ∧ t.sp.val = k.val ∧ t.pc = stackEntry s k ∧
      SameStackEntries s t ∧ SameRegisters s t ∧ SameBytes s t ∧ SameRunControl s t := by
  have hnew : s.sp.val - 1 = k.val := by omega
  refine ⟨_, exec_ret_of_pos s (by omega), hnew, ?_, fun _ => rfl, fun _ => rfl, fun _ => rfl, rfl, rfl, rfl⟩
  simp only [stackEntry, hnew]

/-- RETURN on an empty stack takes StackUnderflow with its word (R59). -/
theorem exec_ret_underflows (s : State) (hsp : s.sp.val = 0) :
    ∃ t, exec .ret s = .next t ∧
      FaultTaken .stackUnderflow 0x00EE#16 s t ∧ causeCode t.faultCause = 3#3 ∧ t.pc = s.pc :=
  ⟨_, exec_ret_of_empty s hsp, faultTaken_raiseFault .stackUnderflow (some _) s, rfl, rfl⟩

/-- Settles O13, by the two sides of the bound. -/
theorem callPushesTheReturnAddressAndJumps : Obligations.CallPushesTheReturnAddressAndJumps :=
  fun addr s => ⟨Laws.encode_call_toNat addr, exec_call_pushes addr s, exec_call_overflows addr s⟩

/-- Settles O14, by the two sides of the bound. -/
theorem returnPopsTheReturnAddressIntoPc : Obligations.ReturnPopsTheReturnAddressIntoPc :=
  ⟨rfl, fun s => ⟨exec_ret_pops s, exec_ret_underflows s⟩⟩

/-! ## The step after a CALL (R60, D15) -/

/-- A step at the word of an instruction runs its handler after the fetch. -/
theorem step_of_encode {s : State} {i : Instr} (hrun : s.runState = .running) (hfetch : FetchLegal s)
    (hword : wordAtPc s = encode i) : step s = exec i (advancePc s) :=
  step_of_decode hrun hfetch (hword ▸ decode_encode i)

/-- Bit 0 is that of the number, whatever the width. -/
theorem getLsbD_zero_of_toNat_eq {n m : ℕ} {v : BitVec n} {a : BitVec m} (h : v.toNat = a.toNat) :
    v.getLsbD 0 = a.getLsbD 0 :=
  congrArg (·.testBit 0) h

/-- Settles O15: the handler of CALL, then the handler of RETURN at its target. -/
theorem callThenReturnComesBack : Obligations.CallThenReturnComesBack := by
  intro s addr hrun hfetch hword hsp heven hle hhi hlo
  obtain ⟨t, hcall, hentry, htsp, htpc, hregs, hbytes, htrun, htcause, htword⟩ :=
    exec_call_pushes addr (advancePc s) hsp
  rw [← step_of_encode hrun hfetch hword] at hcall
  have htfetch : FetchLegal t := ⟨(getLsbD_zero_of_toNat_eq htpc).trans heven, htpc ▸ hle⟩
  have hret : wordAtPc t = encode .ret := by
    rw [wordAtPc, htpc, hbytes, hbytes, readByte_advancePc, readByte_advancePc, hhi, hlo]
    rfl
  obtain ⟨u, hpop, husp, hupc, huentry, huregs, hubytes, hurun, hucause, huword⟩ :=
    exec_ret_pops (advancePc t) ⟨s.sp.val, hsp⟩ htsp
  rw [← step_of_encode (htrun.trans hrun) htfetch hret] at hpop
  exact ⟨u, ⟨t, hcall, u, hpop, rfl⟩, hupc.trans ((hentry _).trans (if_pos rfl)), Fin.ext husp,
    fun i => (huentry i).trans (hentry i), fun i => (huregs i).trans (hregs i),
    fun a => (hubytes a).trans (hbytes a), hurun.trans htrun, hucause.trans htcause, huword.trans htword⟩

/-- Settles O25: CALL jumps to its odd operand, and the fetch fails there. -/
theorem callToAnOddAddressFaultsAtTheNextFetch : Obligations.CallToAnOddAddressFaultsAtTheNextFetch := by
  intro s addr hrun hfetch hword hsp hodd
  obtain ⟨t, hcall, hentry, htsp, htpc, -, -, htrun, -, htword⟩ := exec_call_pushes addr (advancePc s) hsp
  rw [← step_of_encode hrun hfetch hword] at hcall
  have hrun' : t.runState = .running := htrun.trans hrun
  have hfails : FetchFails t := .inl ((getLsbD_zero_of_toNat_eq htpc).trans hodd)
  have htaken : FaultTaken .fetchFault s.faultWord t (raiseFault .fetchFault none t) :=
    htword ▸ faultTaken_raiseFault .fetchFault none t
  exact ⟨t, _, hcall, hrun', htpc, htsp, fun i hi => (hentry i).trans (if_pos hi),
    (StepArm.fetchFault hfails).step_eq hrun', htaken, rfl⟩

/-! ## The flow of control (R61) -/

/-- After a legal fetch every event but those of a CALL and a RETURN leaves `pc` where the fetch put it. -/
theorem StepArm.pc_eq_nextPc {s t : State} (harm : StepArm s t) (hfetch : FetchLegal s)
    (hcall : wordAtPc s &&& 0xF000#16 ≠ 0x2000#16) (hret : wordAtPc s ≠ 0x00EE#16) :
    t.pc = s.pc + Config.pcStep := by
  cases harm with
  | fetchFault hfails => exact absurd hfails (not_fetchFails_of_legal hfetch)
  | unimplemented | halt | add => rfl
  | call addr _ _ hdec | callFull addr _ hdec => exact absurd ((callRow_iff _).2 ⟨addr, hdec⟩) hcall
  | ret _ _ hdec | retEmpty _ hdec => exact absurd ((retWord_iff _).2 hdec) hret

/-- Settles O23, by the event of the step and, for the handlers, by what each writes. -/
theorem onlyCallAndReturnChangeTheFlow : Obligations.OnlyCallAndReturnChangeTheFlow := by
  refine ⟨fun s hrun hfetch hcall hret => ?_, fun s => ⟨_, exec_halt s, haltRun_pc s⟩,
    fun s x y => ⟨_, exec_add x y s, rfl⟩⟩
  obtain ⟨t, harm⟩ := exists_stepArm s
  exact ⟨t, harm.step_eq hrun, harm.pc_eq_nextPc hfetch hcall hret⟩

end Sys2Proof.Machine
end

section
/-! ADD (43_add.md). R62 is proved once, in the adder's terms, as `exec_add_writes`: what each register holds after the
two writes, and the frame. R63's cases and R64's laws are read off it, whichever registers the operands name. -/

namespace Sys2Proof.Machine

/-! ## The adder: order of the operands, and a value added to itself (R63, R64) -/

theorem exactSum_comm (a b : Byte) : exactSum a b = exactSum b a := Nat.add_comm _ _

theorem sumLow_comm (a b : Byte) : sumLow a b = sumLow b a := by rw [sumLow, exactSum_comm, sumLow]

theorem carryFlag_comm (a b : Byte) : carryFlag a b = carryFlag b a := by rw [carryFlag, exactSum_comm, carryFlag]

theorem sumLow_self_toNat (a : Byte) : (sumLow a a).toNat = 2 * a.toNat % 256 := by
  rw [sumLow_toNat, Nat.two_mul]

theorem carryFlag_self (a : Byte) : carryFlag a a = if 128 ≤ a.toNat then 0x01#8 else 0x00#8 :=
  if_congr (by rw [exactSum]; omega) rfl rfl

/-! ## The handler (R62) -/

theorem readReg_writeReg_of_ne (s : State) {i j : RegIndex} (b : Byte) (h : j ≠ i) :
    readReg (writeReg s i b) j = readReg s j := by
  rw [readReg_writeReg, if_neg h.symm]

/-- ADD writes the sum and then the carry, both of the old values, and cannot fault (R62). The flag is the last write,
so the sum stays only in a register other than 15. -/
theorem exec_add_writes (x y : RegIndex) (s : State) :
    ∃ t, exec (.add x y) s = .next t ∧
      (x ≠ 15 → readReg t x = sumLow (readReg s x) (readReg s y)) ∧
      readReg t 15 = carryFlag (readReg s x) (readReg s y) ∧
      (∀ i, i ≠ x → i ≠ 15 → readReg t i = readReg s i) ∧
      t.pc = s.pc ∧ t.sp = s.sp ∧ SameBytes s t ∧ SameStackEntries s t ∧ SameRunControl s t := by
  refine ⟨_, exec_add x y s, fun hx => ?_, ?_, fun i hix hi => ?_, rfl, rfl, fun _ => rfl, fun _ => rfl, rfl, rfl, rfl⟩
  · rw [readReg_writeReg_of_ne _ _ hx, readReg_writeReg, if_pos rfl]
  · rw [readReg_writeReg, if_pos rfl]
  · rw [readReg_writeReg_of_ne _ _ hi, readReg_writeReg_of_ne _ _ hix]

/-- Settles O16: the writes of ADD, with the sum as a number. -/
theorem addWritesTheSumAndThenTheCarry : Obligations.AddWritesTheSumAndThenTheCarry := by
  intro x y s
  obtain ⟨t, hexec, hsum, hcarry, hframe⟩ := exec_add_writes x y s
  exact ⟨Laws.encode_add_toNat x y, t, hexec, fun hx => by rw [hsum hx, sumLow_toNat], hcarry, hframe⟩

/-! ## Operands that coincide or name the flag (R63) -/

/-- Settles O17: where `y` is neither `x` nor 15 its register is not written, and where `x = y` the sum is the
double. -/
theorem addWhenOperandsCoincideOrNameTheFlag : Obligations.AddWhenOperandsCoincideOrNameTheFlag := by
  intro x y s
  obtain ⟨t, hexec, hsum, hcarry, hother, -⟩ := exec_add_writes x y s
  have hnum (hx : x ≠ 15) : (readReg t x).toNat = ((readReg s x).toNat + (readReg s y).toNat) % 256 := by
    rw [hsum hx, sumLow_toNat]
  refine ⟨t, hexec, fun hx hy hxy => ⟨hnum hx, hother y hxy.symm hy, hcarry⟩, ?_, ?_, ?_, ?_⟩
  · rintro rfl hx
    exact ⟨by rw [hsum hx, sumLow_self_toNat], hcarry.trans (carryFlag_self _)⟩
  · rintro rfl hx
    exact ⟨hnum hx, hcarry⟩
  · rintro rfl hy
    exact ⟨hcarry, hother y hy hy⟩
  · rintro rfl rfl
    exact hcarry.trans (carryFlag_self _)

/-! ## The arithmetic laws (R64) -/

/-- The old flag is not added in: states that differ in it alone agree in every register after an ADD whose operands do
not name it, for the flag itself is overwritten (R64). -/
theorem exec_add_ignores_flag {x y : RegIndex} (hx : x ≠ 15) (hy : y ≠ 15) {s t : State} (b : Byte)
    (h : exec (.add x y) s = .next t) :
    ∃ u, exec (.add x y) (writeReg s 15 b) = .next u ∧ SameRegisters t u := by
  obtain ⟨t', ht, hsum, hcarry, hother, -⟩ := exec_add_writes x y s
  obtain rfl : t' = t := Host.Outcome.next.inj (ht.symm.trans h)
  obtain ⟨u, hu, husum, hucarry, huother, -⟩ := exec_add_writes x y (writeReg s 15 b)
  rw [readReg_writeReg_of_ne s b hx, readReg_writeReg_of_ne s b hy] at husum hucarry
  refine ⟨u, hu, fun i => ?_⟩
  by_cases hi : i = 15
  · rw [hi, hucarry, hcarry]
  by_cases hix : i = x
  · rw [hix, husum hx, hsum hx]
  · rw [huother i hix hi, hother i hix hi, readReg_writeReg_of_ne s b hi]

/-- Settles O18: the carry is a quotient by 256, the adder commutes, and the old flag is not one of its operands. -/
theorem addFollowsTheArithmeticLaws : Obligations.AddFollowsTheArithmeticLaws := by
  intro x y s
  obtain ⟨t, ht, hsum, hcarry, -⟩ := exec_add_writes x y s
  obtain ⟨u, hu, husum, hucarry, -⟩ := exec_add_writes y x s
  refine ⟨t, ht, ?_, ⟨u, hu, ?_, fun hx hy => ?_⟩, fun hx hy b => exec_add_ignores_flag hx hy b ht⟩
  · rw [hcarry, carryFlag_toNat, Nat.shiftRight_eq_div_pow]
  · rw [hucarry, hcarry, carryFlag_comm]
  · rw [husum hy, hsum hx, sumLow_comm]

end Sys2Proof.Machine
end

section
/-! The interface to the host and between the sub-blocks (50_interfaces.md): what the writes of the LOAD phase leave at
each location, the protocol around a run, and the call stack as a component. -/

namespace Sys2Proof.Machine

/-! ## The LOAD phase (R67) -/

/-- A byte read after a byte write. -/
theorem readByte_writeByte (s : State) (h : s.mem.wf = true) (a : Addr) (b : Byte) (a' : Nat) :
    readByte (writeByte s a b) a' = if a.toNat = a' then b else readByte s a' :=
  byteAt_put s.mem h a.toNat a' b

/-- A loader write that does not name an address leaves its byte. -/
theorem readByte_loaderWrite_of_ne (s : State) (h : s.mem.wf = true) {w : LoaderWrite} {a : Addr}
    (hw : ∀ b, LoaderWrite.mem a b ≠ w) : readByte (loaderWrite s w) a.toNat = readByte s a.toNat := by
  cases w with
  | reg i b => rfl
  | mem a' b =>
    have hne : a'.toNat ≠ a.toNat := fun heq => hw b (by rw [BitVec.eq_of_toNat_eq heq])
    exact (readByte_writeByte s h a' b a.toNat).trans (if_neg hne)

/-- A loader write that does not name a register leaves it. -/
theorem readReg_loaderWrite_of_ne (s : State) {w : LoaderWrite} {i : RegIndex}
    (hw : ∀ b, LoaderWrite.reg i b ≠ w) : readReg (loaderWrite s w) i = readReg s i := by
  cases w with
  | mem a b => rfl
  | reg j b => exact readReg_writeReg_of_ne s b fun heq => hw b (by rw [heq])

/-- A byte that no write of the list names is at its reset value. -/
theorem readByte_launch_of_not_mem (ws : List LoaderWrite) (a : Addr) (hws : ∀ b, LoaderWrite.mem a b ∉ ws) :
    readByte (launch ws) a.toNat = 0x00#8 := by
  induction ws using List.reverseRecOn with
  | nil => rfl
  | append_singleton ws w ih =>
    simp only [List.mem_append, List.mem_singleton, not_or, forall_and] at hws
    obtain ⟨hold, hnew⟩ := hws
    rw [launch_append, readByte_loaderWrite_of_ne _ (launch_wf ws) hnew, ih hold]

/-- A register that no write of the list names is at its reset value. -/
theorem readReg_launch_of_not_mem (ws : List LoaderWrite) (i : RegIndex) (hws : ∀ b, LoaderWrite.reg i b ∉ ws) :
    readReg (launch ws) i = 0x00#8 := by
  induction ws using List.reverseRecOn with
  | nil => exact Vector.getElem_replicate i.isLt
  | append_singleton ws w ih =>
    simp only [List.mem_append, List.mem_singleton, not_or, forall_and] at hws
    obtain ⟨hold, hnew⟩ := hws
    rw [launch_append, readReg_loaderWrite_of_ne _ hnew, ih hold]

/-- Settles O3: the last write is the last one applied, and a location is named by no write but its own. -/
theorem lastLoaderWriteToALocationWins : Obligations.LastLoaderWriteToALocationWins := by
  refine ⟨fun ws a b => ?_, fun ws i b => ?_, readByte_launch_of_not_mem, readReg_launch_of_not_mem⟩
  · have hread := readByte_writeByte (launch ws) (launch_wf ws) a b
    rw [launch_append]
    exact ⟨(hread a.toNat).trans (if_pos rfl), fun a' hne => (hread a').trans (if_neg hne.symm), fun _ => rfl⟩
  · have hread := readReg_writeReg (launch ws) i
    rw [launch_append]
    exact ⟨(hread i b).trans (if_pos rfl), fun j hne => readReg_writeReg_of_ne _ b hne, fun _ => rfl⟩

/-! ## The protocol around a run (R67) -/

/-- A core once its host has raised `run_en`: in RUN while `run_state` is RUNNING, else in DONE. -/
def hostedRun (s : State) : HostedCore := ⟨if s.runState = .running then .run else .done, s⟩

theorem hostedRun_phase_of_running {s : State} (h : s.runState = .running) : (hostedRun s).phase = .run := if_pos h

theorem eq_hostedRun_iff (h : HostedCore) (s : State) :
    h = hostedRun s ↔ h.core = s ∧ h.phase = if h.core.runState = .running then .run else .done := by
  obtain ⟨p, c⟩ := h
  constructor
  · intro heq
    obtain ⟨rfl, rfl⟩ := HostedCore.mk.inj heq
    exact ⟨rfl, rfl⟩
  · rintro ⟨rfl, hphase⟩
    exact congrArg (HostedCore.mk · c) hphase

theorem hostedMoves_cons_eq_some (h k : HostedCore) (e : HostEvent) (es : List HostEvent) :
    hostedMoves h (e :: es) = some k ↔ ∃ h', hostedMove h e = some h' ∧ hostedMoves h' es = some k := by
  cases hmove : hostedMove h e with
  | none => simp [hostedMoves, hmove]
  | some h' => simp [hostedMoves, hmove]

/-- Only LOAD has a loader write. -/
theorem exists_hostedMove_write_iff (h : HostedCore) (w : LoaderWrite) :
    (∃ h', hostedMove h (.write w) = some h') ↔ h.phase = .load := by
  obtain ⟨p, s⟩ := h
  cases p <;> simp [hostedMove]

/-- A tick is a step of the core in RUN. -/
theorem hostedMove_tick_eq_some (h k : HostedCore) :
    hostedMove h .tick = some k ↔ h.phase = .run ∧ ∃ t, step h.core = .next t ∧ k = hostedRun t := by
  obtain ⟨p, s⟩ := h
  cases p with
  | load | done => simp [hostedMove]
  | run => cases hstep : step s <;> simp [hostedMove, hstep, hostedRun, eq_comm]

/-- Writes in LOAD are applied one after another. -/
theorem hostedMoves_writes (ws : List LoaderWrite) (es : List HostEvent) (s : State) :
    hostedMoves ⟨.load, s⟩ (ws.map .write ++ es) = hostedMoves ⟨.load, ws.foldl loaderWrite s⟩ es := by
  induction ws generalizing s with
  | nil => rfl
  | cons w ws ih => exact ih (loaderWrite s w)

/-- From LOAD after reset to RUN: the core that starts is in the launch state, which is RUNNING. -/
theorem hostedMoves_launch (ws : List LoaderWrite) (es : List HostEvent) :
    hostedMoves ⟨.load, State.reset⟩ (ws.map .write ++ .raiseRunEn :: es) = hostedMoves (hostedRun (launch ws)) es := by
  rw [hostedMoves_writes, hostedRun, if_pos (launch_runState ws)]
  rfl

/-- Ticks after run enable are the steps of a run, whether or not the core is still RUNNING. -/
theorem hostedMoves_ticks (n : Nat) (s : State) (h : HostedCore) :
    hostedMoves (hostedRun s) (List.replicate n .tick) = some h ↔ ∃ t, Reaches n s t ∧ h = hostedRun t := by
  induction n generalizing s with
  | zero => simp [hostedMoves, Reaches, eq_comm]
  | succ n ih =>
    rw [List.replicate_succ, hostedMoves_cons_eq_some]
    simp only [hostedMove_tick_eq_some]
    constructor
    · rintro ⟨h', ⟨-, u, hu, rfl⟩, hticks⟩
      obtain ⟨t, hreach, rfl⟩ := (ih u).1 hticks
      exact ⟨t, ⟨u, hu, hreach⟩, rfl⟩
    · rintro ⟨t, ⟨u, hu, hreach⟩, rfl⟩
      have hrun : s.runState = .running := (exists_step_iff s).1 ⟨u, hu⟩
      exact ⟨_, ⟨hostedRun_phase_of_running hrun, u, hu, rfl⟩, (ih u).2 ⟨t, hreach, rfl⟩⟩

/-- Settles O4: the writes fold to the launch state, and every tick after run enable is a step. -/
theorem hostProtocolCollapsesToLaunchAndRun : Obligations.HostProtocolCollapsesToLaunchAndRun := by
  refine ⟨fun ws n h => ?_, fun _ => rfl, exists_hostedMove_write_iff, fun h => ?_⟩
  · simp only [hostedMoves_launch, hostedMoves_ticks, eq_hostedRun_iff]
    constructor
    · rintro ⟨_, hreach, rfl, hphase⟩
      exact ⟨hreach, hphase⟩
    · rintro ⟨hreach, hphase⟩
      exact ⟨h.core, hreach, rfl, hphase⟩
  · simp only [hostedMove_tick_eq_some, ← exists_step_iff]
    constructor
    · rintro ⟨_, hphase, t, hstep, -⟩
      exact ⟨hphase, t, hstep⟩
    · rintro ⟨hphase, t, hstep⟩
      exact ⟨hostedRun t, hphase, t, hstep, rfl⟩

/-! ## The call stack as a component (R70) -/

theorem exists_push_iff (s : State) (v : Word) : (∃ t, push s v = some t) ↔ s.sp.val < 16 := by
  rcases push_cases s v with ⟨hlt, hpush⟩ | ⟨hfull, hpush⟩
  · simp [hpush, hlt]
  · simp [hpush, hfull]

theorem exists_pop_iff (s : State) : (∃ p, pop s = some p) ↔ 0 < s.sp.val := by
  rcases pop_cases s with ⟨hpos, hpop⟩ | ⟨hempty, hpop⟩
  · simp [hpop, hpos]
  · simp [hpop, hempty]

/-- A pop after a push takes the entry the push wrote. -/
theorem pop_of_push {s t : State} {v : Word} (h : push s v = some t) : pop t = some (v, { t with sp := s.sp }) := by
  obtain ⟨hlt, hpush⟩ | ⟨-, hpush⟩ := push_cases s v
  · obtain rfl := Option.some.inj (hpush.symm.trans h)
    rw [pop_of_pos _ (Nat.succ_pos _)]
    simp
  · rw [hpush] at h; cases h

/-- Settles O43, from the bound of each operation and, where the push is delivered, the entry it writes. -/
theorem popAfterPushDeliversTheValue : Obligations.PopAfterPushDeliversTheValue := by
  refine fun s v => ⟨exists_push_iff s v, exists_pop_iff s, fun t h => ?_⟩
  have hlt := (exists_push_iff s v).1 ⟨t, h⟩
  have hpop := pop_of_push h
  obtain rfl := Option.some.inj ((push_of_lt s v hlt).symm.trans h)
  refine ⟨fun i => ?_, rfl, _, hpop, rfl⟩
  exact (stackEntry_set s ⟨s.sp.val, hlt⟩ i v _ _).trans (if_congr (Fin.ext_iff.trans eq_comm) rfl rfl)

end Sys2Proof.Machine
end

section
/-! The four faults (60_exceptions.md): the condition of each (R71), and what a step that takes one writes (R74). -/

namespace Sys2Proof.Machine

/-! ## The conditions (R71) -/

/-- The condition of each fault, as R71's table has it. -/
def FaultCondition (s : State) : FaultKind → Prop
  | .unimplementedOpcode => FetchLegal s ∧ MatchesNoRow (wordAtPc s)
  | .stackOverflow => FetchLegal s ∧ wordAtPc s &&& 0xF000#16 = 0x2000#16 ∧ s.sp.val = 16
  | .stackUnderflow => FetchLegal s ∧ wordAtPc s = 0x00EE#16 ∧ s.sp.val = 0
  | .fetchFault => FetchFails s

/-- Distinct causes have distinct codes (R18). -/
theorem causeCode_inj {c d : Option FaultKind} : causeCode c = causeCode d ↔ c = d := by
  rcases c with _ | _ | _ | _ | _ <;> rcases d with _ | _ | _ | _ | _ <;> decide

section
variable {s t : State}

/-- Where no fault is recorded before the step, a cause is recorded under its condition and under no other. -/
theorem StepArm.faultCause_iff (harm : StepArm s t) (hcause : s.faultCause = none) (k : FaultKind) :
    t.faultCause = some k ↔ FaultCondition s k := by
  cases k with
  | fetchFault => exact harm.fetchFault_iff hcause
  | unimplementedOpcode | stackOverflow | stackUnderflow =>
    simp only [FaultCondition, matchesNoRow_iff, callRow_iff, retWord_iff]
    cases harm with
    | fetchFault hfails => exact ⟨nofun, fun h => absurd hfails (not_fetchFails_of_legal h.1)⟩
    | unimplemented hfetch hdec => rw [and_iff_right hfetch]; simp [hdec]
    | callFull _ hfetch hdec hsp | retEmpty hfetch hdec hsp => rw [and_iff_right hfetch]; simp [hdec, hsp]
    | halt _ hdec | add _ _ _ hdec => simp [hcause, hdec]
    | call _ k _ hdec hsp => simp [hcause, hdec, hsp, k.isLt.ne]
    | ret _ _ hdec hsp => simp [hcause, hdec, hsp]

/-! ## What a faulting step writes (R74) -/

/-- A step that faults after a legal fetch raises its fault, with the word, in the state the fetch left. -/
theorem StepArm.eq_of_legal_faulted (harm : StepArm s t) (hrun : s.runState = .running)
    (hfault : t.runState = .faulted) (hlegal : FetchLegal s) :
    ∃ k, k ≠ .fetchFault ∧ t = raiseFault k (some (wordAtPc s)) (advancePc s) := by
  cases harm with
  | fetchFault hfails => exact absurd hfails (not_fetchFails_of_legal hlegal)
  | unimplemented => exact ⟨.unimplementedOpcode, nofun, rfl⟩
  | callFull _ _ hdec => exact ⟨.stackOverflow, nofun, by rw [encode_of_decode hdec]⟩
  | retEmpty _ hdec => exact ⟨.stackUnderflow, nofun, by rw [(retWord_iff _).2 hdec]⟩
  | halt => cases hfault
  | add | call | ret => cases hrun.symm.trans hfault

end

/-- No state follows a FAULTED one (R54). -/
theorem step_ne_next_of_faulted {t : State} (h : t.runState = .faulted) (u : State) : step t ≠ .next u := by
  rw [step_of_faulted t h]
  exact nofun

/-- The handlers of HALT and ADD leave the recorded cause (R71). -/
theorem exec_halt_or_add_keeps_faultCause {i : Instr} {s u : State} (hi : i = .halt ∨ ∃ x y, i = .add x y)
    (h : exec i s = .next u) : u.faultCause = s.faultCause := by
  obtain rfl | ⟨x, y, rfl⟩ := hi
  · rw [exec_halt] at h; cases h; rfl
  · rw [exec_add] at h; cases h; rfl

/-- Settles O26: each cause has its own code and is recorded under its own condition; the record of the next state is
consistent, and the word and `pc` are those of the two shapes of a faulting step. -/
theorem eachFaultIsTakenUnderItsConditionOnly : Obligations.EachFaultIsTakenUnderItsConditionOnly := by
  intro s hrun hrec
  obtain ⟨hcause, hword⟩ := hrec
  have hnone : s.faultCause = none := by simpa [hrun] using hcause
  obtain ⟨t, harm⟩ := exists_stepArm s
  have hcode (k : FaultKind) : causeCode t.faultCause = causeCode (some k) ↔ FaultCondition s k :=
    causeCode_inj.trans (harm.faultCause_iff hnone k)
  obtain ⟨hrecorded, -⟩ := harm.keeps_recordConsistent hrun ⟨hcause, hword⟩
  refine ⟨t, harm.step_eq hrun, hcode .unimplementedOpcode, hcode .stackOverflow, hcode .stackUnderflow,
    hcode .fetchFault, hrecorded.symm.trans (not_congr (causeCode_inj (d := none)).symm), ?_, ?_,
    fun i u => exec_halt_or_add_keeps_faultCause⟩
  · intro hfault hlegal
    obtain ⟨k, -, rfl⟩ := harm.eq_of_legal_faulted hrun hfault hlegal
    exact ⟨rfl, rfl⟩
  · intro _ hfails
    obtain rfl := harm.eq_of_fails hfails
    exact ⟨hword (.inl hnone), rfl⟩

/-- Settles O27, by the two sides of the fetch test. -/
theorem aFaultWritesTheRecordAndNothingElse : Obligations.AFaultWritesTheRecordAndNothingElse := by
  intro s t h hfault
  obtain ⟨hrun, harm⟩ := (step_eq_next_iff s t).1 h
  refine ⟨?_, step_ne_next_of_faulted hfault, fun hend => nomatch hfault.symm.trans hend.1⟩
  rcases fetchLegal_or_fails s with hlegal | hfails
  · obtain ⟨k, hk, rfl⟩ := harm.eq_of_legal_faulted hrun hfault hlegal
    exact ⟨k, rfl, fun _ => ⟨hk, rfl⟩, fun hfails => absurd hfails (not_fetchFails_of_legal hlegal)⟩
  · obtain rfl := harm.eq_of_fails hfails
    exact ⟨_, rfl, fun hlegal => absurd hfails (not_fetchFails_of_legal hlegal), fun _ => ⟨rfl, rfl⟩⟩

end Sys2Proof.Machine
end

section
/-! The launch state (70_reset_and_hazards.md R85): the reset state with the loader's image in memory and registers. -/

namespace Sys2Proof.Machine

/-! ## What the loader cannot write -/

/-- Everything but memory and registers is at reset in every launch state (R66, R85). -/
theorem launch_fixed (ws : List LoaderWrite) :
    (launch ws).pc = State.reset.pc ∧ (launch ws).sp = State.reset.sp ∧ (launch ws).stack = State.reset.stack ∧
    (launch ws).runState = State.reset.runState ∧ (launch ws).faultCause = State.reset.faultCause ∧
    (launch ws).faultWord = State.reset.faultWord := by
  induction ws using List.reverseRecOn with
  | nil => exact ⟨rfl, rfl, rfl, rfl, rfl, rfl⟩
  | append_singleton ws w ih =>
    obtain ⟨hpc, hsp, hstack, hrun, hcause, hword⟩ := loaderWrite_fixed (launch ws) w
    rw [launch_append, hpc, hsp, hstack, hrun, hcause, hword]
    exact ih

/-! ## What the loader writes -/

/-- A byte that the list writes, always to one value, holds that value at launch. -/
theorem readByte_launch_of_mem (ws : List LoaderWrite) {a : Addr} {b : Byte} (hmem : .mem a b ∈ ws)
    (hall : ∀ c, .mem a c ∈ ws → c = b) : readByte (launch ws) a.toNat = b := by
  induction ws using List.reverseRecOn with
  | nil => cases hmem
  | append_singleton ws w ih =>
    simp only [List.mem_append, List.mem_singleton] at hmem hall
    rw [launch_append]
    by_cases hw : .mem a b = w
    · subst hw
      exact (readByte_writeByte _ (launch_wf ws) a b a.toNat).trans (if_pos rfl)
    · have hother : ∀ c, .mem a c ≠ w := fun c hc => hw (hall c (.inr hc) ▸ hc)
      rw [readByte_loaderWrite_of_ne _ (launch_wf ws) hother]
      exact ih (hmem.resolve_right hw) fun c hc => hall c (.inl hc)

/-- A register that the list writes, always to one value, holds that value at launch. -/
theorem readReg_launch_of_mem (ws : List LoaderWrite) {i : RegIndex} {b : Byte} (hmem : .reg i b ∈ ws)
    (hall : ∀ c, .reg i c ∈ ws → c = b) : readReg (launch ws) i = b := by
  induction ws using List.reverseRecOn with
  | nil => cases hmem
  | append_singleton ws w ih =>
    simp only [List.mem_append, List.mem_singleton] at hmem hall
    rw [launch_append]
    by_cases hw : .reg i b = w
    · subst hw
      exact (readReg_writeReg _ i i b).trans (if_pos rfl)
    · have hother : ∀ c, .reg i c ≠ w := fun c hc => hw (hall c (.inr hc) ▸ hc)
      rw [readReg_loaderWrite_of_ne _ hother]
      exact ih (hmem.resolve_right hw) fun c hc => hall c (.inl hc)

/-! ## The loader's image -/

/-- The writes that load an image: every address and every register, once each. -/
def imageWrites (imgMem : Addr → Byte) (imgV : RegIndex → Byte) : List LoaderWrite :=
  (List.finRange (2 ^ 12)).map (fun k => .mem (.ofFin k) (imgMem (.ofFin k))) ++
    (List.finRange 16).map fun i => .reg i (imgV i)

section
variable (imgMem : Addr → Byte) (imgV : RegIndex → Byte)

theorem mem_imageWrites (a : Addr) (b : Byte) : .mem a b ∈ imageWrites imgMem imgV ↔ b = imgMem a := by
  simp only [imageWrites, List.mem_append, List.mem_map, List.mem_finRange, LoaderWrite.mem.injEq, reduceCtorEq,
    true_and, and_false, exists_false, or_false]
  constructor
  · rintro ⟨k, rfl, rfl⟩
    rfl
  · rintro rfl
    exact ⟨a.toFin, rfl, rfl⟩

theorem reg_imageWrites (i : RegIndex) (b : Byte) : .reg i b ∈ imageWrites imgMem imgV ↔ b = imgV i := by
  simp [imageWrites, eq_comm]

/-- At launch every address holds its byte of the image. -/
theorem readByte_launch_imageWrites (a : Addr) :
    readByte (launch (imageWrites imgMem imgV)) a.toNat = imgMem a :=
  readByte_launch_of_mem _ ((mem_imageWrites ..).2 rfl) fun _ => (mem_imageWrites ..).1

/-- At launch every register holds its byte of the image. -/
theorem readReg_launch_imageWrites (i : RegIndex) : readReg (launch (imageWrites imgMem imgV)) i = imgV i :=
  readReg_launch_of_mem _ ((reg_imageWrites ..).2 rfl) fun _ => (reg_imageWrites ..).1

end

/-- Settles O2: the writes of an image name every location with one value, and no write reaches the other fields. -/
theorem launchStateIsResetWithTheLoadersImage : Obligations.LaunchStateIsResetWithTheLoadersImage := by
  refine ⟨fun imgMem imgV => ⟨imageWrites imgMem imgV, readByte_launch_imageWrites imgMem imgV,
    readReg_launch_imageWrites imgMem imgV⟩, fun ws => ?_⟩
  obtain ⟨hpc, hsp, hstack, hrun, hcause, hword⟩ := launch_fixed ws
  obtain ⟨-, -, -, -, hreset, -⟩ := resetZeroesEveryPieceOfState (launch ws)
  have hentry (i : Fin 16) : stackEntry (launch ws) i = 0x0000#16 := by
    rw [stackEntry, hstack]
    exact hreset i
  exact ⟨hpc, congrArg Fin.val hsp, hentry, hrun, hcause, hword⟩

end Sys2Proof.Machine
end
